-- ==== Sys2Proof/Word.lean ====
section
/-! DEFINITION. The values the machine handles: bytes, 16-bit words, 12-bit addresses of an opcode, register numbers.
All are unsigned (00_scope.md R9). -/
namespace Sys2Proof

/-- An 8-bit value: a V register, a timer, a Memory byte, a framebuffer cell, the field kk (R21, R28, R52, R31, R82). -/
abbrev Byte := BitVec 8

/-- A 16-bit value: an opcode, I, pc, a stack slot (R80, R23, R24, R26). -/
abbrev Word := BitVec 16

/-- The 12-bit field nnn of an opcode (R81). -/
abbrev Addr12 := BitVec 12

/-- The 4-bit field n of an opcode (R81). -/
abbrev Nibble := BitVec 4

/-- A register number 0x0..0xF, the meaning of the fields x and y (R21, R82); also a key number and a hex digit (R29, R32). -/
abbrev Reg := Fin 16

/-- The number of VF, the flag register (R22). -/
abbrev regF : Reg := 15

end Sys2Proof
end

