-- ==== Sys2Proof/Config.lean ====
section
/-! DEFINITION. The fixed parameters of the hardware (00_scope.md R7) and its one free value inside a step (R8). -/
namespace Sys2Proof.Config

/-- MEM_SIZE: the bytes of Memory (R7, R50). -/
@[simp] abbrev memSize : Nat := 4096

/-- ROM_BASE: where LoadRom writes, and the pc after reset (R7, R60, R320). -/
@[simp] abbrev romBase : Nat := 0x200

/-- ROM_MAX: the longest ROM, MEM_SIZE - ROM_BASE (R7, R60). -/
@[simp] abbrev romMax : Nat := 3584

/-- FONT_BASE: the address of glyph 0 (R7, R63). -/
@[simp] abbrev fontBase : Nat := 0x050

/-- SCREEN_W (R7, R220). -/
@[simp] abbrev screenW : Nat := 64

/-- SCREEN_H (R7, R220). -/
@[simp] abbrev screenH : Nat := 32

/-- The number of framebuffer cells, SCREEN_W x SCREEN_H (R31). -/
@[simp] abbrev fbSize : Nat := 2048

/-- STACK_DEPTH (R7, R26). -/
@[simp] abbrev stackDepth : Nat := 16

/-- `rnd`: the byte the n-th RND draw gives, under no law (R8, R162, D20). A free value: it has no body, so nothing can be
proved of what it is (log 7). The counter that selects the draw is `State.draws`. -/
opaque rnd : Nat → Byte

end Sys2Proof.Config
end

