-- ==== Sys2Proof/Syntax.lean ====
section
/-! DEFINITION. The instruction set: one constructor per row of 30_encoding.md R86, in its order. An instruction holds the
fields it uses (R81, R82); bits it ignores (R87) are not kept (log 15). -/
namespace Sys2Proof

/-- The 35 instructions (R86). -/
inductive Instr where
  /-- 00E0 `CLS` (R226) -/
  | cls
  /-- 00EE `RET` (R121) -/
  | ret
  /-- 00FD `EXIT` (R122) -/
  | exit
  /-- 1nnn `JP addr` (R123) -/
  | jp (nnn : Addr12)
  /-- 2nnn `CALL addr` (R124) -/
  | call (nnn : Addr12)
  /-- 3xkk `SE Vx, kk` (R125) -/
  | seByte (x : Reg) (kk : Byte)
  /-- 4xkk `SNE Vx, kk` (R126) -/
  | sneByte (x : Reg) (kk : Byte)
  /-- 5xy0 `SE Vx, Vy` (R127) -/
  | seReg (x y : Reg)
  /-- 9xy0 `SNE Vx, Vy` (R128) -/
  | sneReg (x y : Reg)
  /-- 6xkk `LD Vx, kk` (R151) -/
  | ldByte (x : Reg) (kk : Byte)
  /-- 7xkk `ADD Vx, kk` (R152) -/
  | addByte (x : Reg) (kk : Byte)
  /-- 8xy0 `LD Vx, Vy` (R153) -/
  | ldReg (x y : Reg)
  /-- 8xy1 `OR Vx, Vy` (R154) -/
  | orReg (x y : Reg)
  /-- 8xy2 `AND Vx, Vy` (R155) -/
  | andReg (x y : Reg)
  /-- 8xy3 `XOR Vx, Vy` (R156) -/
  | xorReg (x y : Reg)
  /-- 8xy4 `ADD Vx, Vy` (R157) -/
  | addReg (x y : Reg)
  /-- 8xy5 `SUB Vx, Vy` (R158) -/
  | subReg (x y : Reg)
  /-- 8xy6 `SHR Vx` (R159) -/
  | shr (x : Reg)
  /-- 8xy7 `SUBN Vx, Vy` (R160) -/
  | subnReg (x y : Reg)
  /-- 8xyE `SHL Vx` (R161) -/
  | shl (x : Reg)
  /-- Annn `LD I, addr` (R191) -/
  | ldI (nnn : Addr12)
  /-- Bnnn `JP V0, addr` (R129) -/
  | jpV0 (nnn : Addr12)
  /-- Cxkk `RND Vx, kk` (R162) -/
  | rnd (x : Reg) (kk : Byte)
  /-- Dxyn `DRW Vx, Vy, n` (R227) -/
  | drw (x y : Reg) (n : Nibble)
  /-- Ex9E `SKP Vx` (R251) -/
  | skp (x : Reg)
  /-- ExA1 `SKNP Vx` (R252) -/
  | sknp (x : Reg)
  /-- Fx07 `LD Vx, DT` (R253) -/
  | ldFromDt (x : Reg)
  /-- Fx0A `LD Vx, K` (R254) -/
  | ldKey (x : Reg)
  /-- Fx15 `LD DT, Vx` (R255) -/
  | ldDt (x : Reg)
  /-- Fx18 `LD ST, Vx` (R256) -/
  | ldSt (x : Reg)
  /-- Fx1E `ADD I, Vx` (R192) -/
  | addI (x : Reg)
  /-- Fx29 `LD F, Vx` (R193) -/
  | ldFont (x : Reg)
  /-- Fx33 `LD B, Vx` (R194) -/
  | ldBcd (x : Reg)
  /-- Fx55 `LD [I], Vx` (R195) -/
  | storeRegs (x : Reg)
  /-- Fx65 `LD Vx, [I]` (R196) -/
  | loadRegs (x : Reg)
  deriving DecidableEq, Repr

end Sys2Proof
end

