-- ==== Sys2Proof/WellFormed.lean ====
section
/-! DEFINITION. The opcode table of 30_encoding.md R86 (match and mask of each instruction) and the checks that say which words
and which ROMs are well formed. A term of `Instr` needs no check: the ranges of R82 are the types of its fields. -/
namespace Sys2Proof

/-- One row of R86: the mnemonic as opcode_table.json spells it, and what the registry tree examines. -/
structure OpcodeRow where
  mnemonic  : String
  matchBits : Word
  mask      : Word
  deriving DecidableEq, Repr

/-- `op & mask == match` selects the row's instruction (R86). -/
def OpcodeRow.selects (r : OpcodeRow) (op : Word) : Bool :=
  op &&& r.mask == r.matchBits

/-- The row of R86 an instruction belongs to. -/
def Instr.row : Instr → OpcodeRow
  | .cls           => ⟨"CLS",           0x00E0, 0xF0FF⟩
  | .ret           => ⟨"RET",           0x00EE, 0xF0FF⟩
  | .exit          => ⟨"EXIT",          0x00FD, 0xF0FF⟩
  | .jp _          => ⟨"JP_addr",       0x1000, 0xF000⟩
  | .call _        => ⟨"CALL_addr",     0x2000, 0xF000⟩
  | .seByte _ _    => ⟨"SE_Vx__kk",     0x3000, 0xF000⟩
  | .sneByte _ _   => ⟨"SNE_Vx__kk",    0x4000, 0xF000⟩
  | .seReg _ _     => ⟨"SE_Vx__Vy",     0x5000, 0xF000⟩
  | .sneReg _ _    => ⟨"SNE_Vx__Vy",    0x9000, 0xF000⟩
  | .ldByte _ _    => ⟨"LD_Vx__kk",     0x6000, 0xF000⟩
  | .addByte _ _   => ⟨"ADD_Vx__kk",    0x7000, 0xF000⟩
  | .ldReg _ _     => ⟨"LD_Vx__Vy",     0x8000, 0xF00F⟩
  | .orReg _ _     => ⟨"OR_Vx__Vy",     0x8001, 0xF00F⟩
  | .andReg _ _    => ⟨"AND_Vx__Vy",    0x8002, 0xF00F⟩
  | .xorReg _ _    => ⟨"XOR_Vx__Vy",    0x8003, 0xF00F⟩
  | .addReg _ _    => ⟨"ADD_Vx__Vy",    0x8004, 0xF00F⟩
  | .subReg _ _    => ⟨"SUB_Vx__Vy",    0x8005, 0xF00F⟩
  | .shr _         => ⟨"SHR_Vx",        0x8006, 0xF00F⟩
  | .subnReg _ _   => ⟨"SUBN_Vx__Vy",   0x8007, 0xF00F⟩
  | .shl _         => ⟨"SHL_Vx",        0x800E, 0xF00F⟩
  | .ldI _         => ⟨"LD_I__addr",    0xA000, 0xF000⟩
  | .jpV0 _        => ⟨"JP_V0__addr",   0xB000, 0xF000⟩
  | .rnd _ _       => ⟨"RND_Vx__kk",    0xC000, 0xF000⟩
  | .drw _ _ _     => ⟨"DRW_Vx__Vy__n", 0xD000, 0xF000⟩
  | .skp _         => ⟨"SKP_Vx",        0xE09E, 0xF0FF⟩
  | .sknp _        => ⟨"SKNP_Vx",       0xE0A1, 0xF0FF⟩
  | .ldFromDt _    => ⟨"LD_Vx__DT",     0xF007, 0xF0FF⟩
  | .ldKey _       => ⟨"LD_Vx__K",      0xF00A, 0xF0FF⟩
  | .ldDt _        => ⟨"LD_DT__Vx",     0xF015, 0xF0FF⟩
  | .ldSt _        => ⟨"LD_ST__Vx",     0xF018, 0xF0FF⟩
  | .addI _        => ⟨"ADD_I__Vx",     0xF01E, 0xF0FF⟩
  | .ldFont _      => ⟨"LD_F__Vx",      0xF029, 0xF0FF⟩
  | .ldBcd _       => ⟨"LD_B__Vx",      0xF033, 0xF0FF⟩
  | .storeRegs _   => ⟨"LD__I___Vx",    0xF055, 0xF0FF⟩
  | .loadRegs _    => ⟨"LD_Vx___I",     0xF065, 0xF0FF⟩

/-- One instruction of each constructor, in R86's order. -/
def Instr.oneOfEach : List Instr :=
  [.cls, .ret, .exit, .jp 0, .call 0, .seByte 0 0, .sneByte 0 0, .seReg 0 0, .sneReg 0 0]
  ++ [.ldByte 0 0, .addByte 0 0, .ldReg 0 0, .orReg 0 0, .andReg 0 0, .xorReg 0 0, .addReg 0 0]
  ++ [.subReg 0 0, .shr 0, .subnReg 0 0, .shl 0, .ldI 0, .jpV0 0, .rnd 0 0, .drw 0 0 0]
  ++ [.skp 0, .sknp 0, .ldFromDt 0, .ldKey 0, .ldDt 0, .ldSt 0]
  ++ [.addI 0, .ldFont 0, .ldBcd 0, .storeRegs 0, .loadRegs 0]

/-- The opcode table: the 35 rows of R86. -/
def opcodeTable : List OpcodeRow :=
  Instr.oneOfEach.map Instr.row

/-- A word is well formed when some row of R86 selects it; every other word is unmapped (R89). -/
def wordWellFormed (op : Word) : Bool :=
  opcodeTable.any (·.selects op)

/-- A ROM is well formed when it fits from ROM_BASE to the end of Memory (R60, R323). -/
def romWellFormed (bytes : List Byte) : Bool :=
  decide (bytes.length ≤ Config.romMax)

/-- An opcode can be fetched or stored at `a` when both its bytes are inside Memory (R61, R92). -/
def opcodeAddrWellFormed (a : Nat) : Bool :=
  decide (a + 1 < Config.memSize)

end Sys2Proof
end

