-- ==== Sys2Proof/Decode.lean ====
section
/-! DEFINITION. The instruction decoder (the registry tree of 30_encoding.md R83 to R88), on words and on bytes, and the encoder
written from the same table (R86). -/
namespace Sys2Proof

/-! ### The fields of an opcode (R12, R81) -/

/-- The family `op[15:12]`, the top-level index (R83). -/
def opFamily (op : Word) : Nibble := op.extractLsb' 12 4

/-- `nnn = op[11:0]`. -/
def opNNN (op : Word) : Addr12 := op.extractLsb' 0 12

/-- `x = op[11:8]`, a register number. -/
def opX (op : Word) : Reg := (op.extractLsb' 8 4).toFin

/-- `y = op[7:4]`, a register number. -/
def opY (op : Word) : Reg := (op.extractLsb' 4 4).toFin

/-- `kk = op[7:0]`. -/
def opKK (op : Word) : Byte := op.extractLsb' 0 8

/-- `n = op[3:0]`. -/
def opN (op : Word) : Nibble := op.extractLsb' 0 4

/-- `hi ++ lo`: the word whose high byte is at the lower address (R55). -/
def joinBytes (hi lo : Byte) : Word := hi ++ lo

/-- `op[15:8]` (R55). -/
def highByte (op : Word) : Byte := op.extractLsb' 8 8

/-- `op[7:0]` (R55). -/
def lowByte (op : Word) : Byte := op.extractLsb' 0 8

/-! ### The registry tree -/

/-- The nested registry of family 0, index `op[7:0]` (R85): CLS, RET, EXIT. -/
def registry0 (op : Word) : Option Instr :=
  match opKK op with
  | 0xE0#8 => some .cls
  | 0xEE#8 => some .ret
  | 0xFD#8 => some .exit
  | _      => none

/-- The nested registry of family 8, index `op[3:0]` (R85, C1): the nine register-register operations. -/
def registry8 (op : Word) : Option Instr :=
  match opN op with
  | 0x0#4 => some (.ldReg (opX op) (opY op))
  | 0x1#4 => some (.orReg (opX op) (opY op))
  | 0x2#4 => some (.andReg (opX op) (opY op))
  | 0x3#4 => some (.xorReg (opX op) (opY op))
  | 0x4#4 => some (.addReg (opX op) (opY op))
  | 0x5#4 => some (.subReg (opX op) (opY op))
  | 0x6#4 => some (.shr (opX op))
  | 0x7#4 => some (.subnReg (opX op) (opY op))
  | 0xE#4 => some (.shl (opX op))
  | _     => none

/-- The nested registry of family E, index `op[7:0]` (R85): SKP, SKNP. -/
def registryE (op : Word) : Option Instr :=
  match opKK op with
  | 0x9E#8 => some (.skp (opX op))
  | 0xA1#8 => some (.sknp (opX op))
  | _      => none

/-- The nested registry of family F, index `op[7:0]` (R85): nine instructions. -/
def registryF (op : Word) : Option Instr :=
  match opKK op with
  | 0x07#8 => some (.ldFromDt (opX op))
  | 0x0A#8 => some (.ldKey (opX op))
  | 0x15#8 => some (.ldDt (opX op))
  | 0x18#8 => some (.ldSt (opX op))
  | 0x1E#8 => some (.addI (opX op))
  | 0x29#8 => some (.ldFont (opX op))
  | 0x33#8 => some (.ldBcd (opX op))
  | 0x55#8 => some (.storeRegs (opX op))
  | 0x65#8 => some (.loadRegs (opX op))
  | _      => none

/-- The top-level registry, index `op[15:12]`: a leaf handler or a nested registry in every slot (R84, R88). `none` is
"no handler" (R83). The last slot is 0xF, the only family the others leave. -/
def decodeWord (op : Word) : Option Instr :=
  match opFamily op with
  | 0x0#4 => registry0 op
  | 0x1#4 => some (.jp (opNNN op))
  | 0x2#4 => some (.call (opNNN op))
  | 0x3#4 => some (.seByte (opX op) (opKK op))
  | 0x4#4 => some (.sneByte (opX op) (opKK op))
  | 0x5#4 => some (.seReg (opX op) (opY op))
  | 0x6#4 => some (.ldByte (opX op) (opKK op))
  | 0x7#4 => some (.addByte (opX op) (opKK op))
  | 0x8#4 => registry8 op
  | 0x9#4 => some (.sneReg (opX op) (opY op))
  | 0xA#4 => some (.ldI (opNNN op))
  | 0xB#4 => some (.jpV0 (opNNN op))
  | 0xC#4 => some (.rnd (opX op) (opKK op))
  | 0xD#4 => some (.drw (opX op) (opY op) (opN op))
  | 0xE#4 => registryE op
  | _     => registryF op

/-- Why a list of bytes holds no instruction. -/
inductive DecodeError where
  /-- fewer than the two bytes every instruction has (R80; log 18) -/
  | truncated
  /-- no handler resolves for the word: `UnimplementedOpcode(op)` (R89) -/
  | unimplementedOpcode (op : Word)
  deriving DecidableEq, Repr

/-- Decoding bytes in memory order: the first two are the opcode, high byte first (R55, R91), the rest is handed back. -/
def decode : List Byte → Except DecodeError (Instr × List Byte)
  | hi :: lo :: rest =>
    match decodeWord (joinBytes hi lo) with
    | some i => .ok (i, rest)
    | none   => .error (.unimplementedOpcode (joinBytes hi lo))
  | _ => .error .truncated

/-! ### The encoder -/

/-- A register number as the four bits of a field x or y. -/
def regBits (r : Reg) : BitVec 4 := BitVec.ofFin r

/-- The form `t nnn` (R81). -/
def encNNN (t : Nibble) (nnn : Addr12) : Word := t ++ nnn

/-- The form `t x kk` (R81). -/
def encXKK (t : Nibble) (x : Reg) (kk : Byte) : Word := t ++ regBits x ++ kk

/-- The form `t x y n` (R81). -/
def encXYN (t : Nibble) (x y : Reg) (n : Nibble) : Word := t ++ regBits x ++ regBits y ++ n

/-- The word of an instruction (R86). Bits the registry ignores (R87) are written as 0, the spelling of R86's patterns
(log 15). -/
def encode : Instr → Word
  | .cls           => 0x00E0#16
  | .ret           => 0x00EE#16
  | .exit          => 0x00FD#16
  | .jp nnn        => encNNN 0x1 nnn
  | .call nnn      => encNNN 0x2 nnn
  | .seByte x kk   => encXKK 0x3 x kk
  | .sneByte x kk  => encXKK 0x4 x kk
  | .seReg x y     => encXYN 0x5 x y 0x0
  | .sneReg x y    => encXYN 0x9 x y 0x0
  | .ldByte x kk   => encXKK 0x6 x kk
  | .addByte x kk  => encXKK 0x7 x kk
  | .ldReg x y     => encXYN 0x8 x y 0x0
  | .orReg x y     => encXYN 0x8 x y 0x1
  | .andReg x y    => encXYN 0x8 x y 0x2
  | .xorReg x y    => encXYN 0x8 x y 0x3
  | .addReg x y    => encXYN 0x8 x y 0x4
  | .subReg x y    => encXYN 0x8 x y 0x5
  | .shr x         => encXYN 0x8 x 0 0x6
  | .subnReg x y   => encXYN 0x8 x y 0x7
  | .shl x         => encXYN 0x8 x 0 0xE
  | .ldI nnn       => encNNN 0xA nnn
  | .jpV0 nnn      => encNNN 0xB nnn
  | .rnd x kk      => encXKK 0xC x kk
  | .drw x y n     => encXYN 0xD x y n
  | .skp x         => encXKK 0xE x 0x9E
  | .sknp x        => encXKK 0xE x 0xA1
  | .ldFromDt x    => encXKK 0xF x 0x07
  | .ldKey x       => encXKK 0xF x 0x0A
  | .ldDt x        => encXKK 0xF x 0x15
  | .ldSt x        => encXKK 0xF x 0x18
  | .addI x        => encXKK 0xF x 0x1E
  | .ldFont x      => encXKK 0xF x 0x29
  | .ldBcd x       => encXKK 0xF x 0x33
  | .storeRegs x   => encXKK 0xF x 0x55
  | .loadRegs x    => encXKK 0xF x 0x65

/-- The bytes of an instruction in memory order, high byte first (R55). -/
def encodeBytes (i : Instr) : List Byte :=
  [highByte (encode i), lowByte (encode i)]

/-- The bits of its words that an instruction's decoding depends on: the complement of R87's ignored bits. -/
def Instr.examinedBits : Instr → Word
  | .cls | .ret | .exit        => 0xF0FF
  | .seReg _ _ | .sneReg _ _   => 0xFFF0
  | .shr _ | .shl _            => 0xFF0F
  | _                          => 0xFFFF

/-- The word of the low `nbits` bits of `w`, every bit above them 0. -/
def tableWord (nbits w : Nat) : Word := BitVec.ofNat 16 (w % 2 ^ nbits)

/-- The instruction the decoder reads from the word `w`, laid out as memory stores it: high byte first. -/
def decodeTableWord (nbits w : Nat) : Option Instr :=
  match decode [highByte (tableWord nbits w), lowByte (tableWord nbits w)] with
  | .ok (i, _) => some i
  | .error _   => none

end Sys2Proof
end

