-- ==== Sys2Proof/Machine/Font.lean ====
section
/-! DEFINITION. The built-in font (20_memory.md R63): the 80 glyph bytes, the addresses of the glyphs, and what Memory holds at
power-on (R36, R58). -/
namespace Sys2Proof.Machine

/-- The 80 font bytes, glyph 0 first, five rows each (R63). PRESUMED: the spec marks the values as general knowledge, not from
its source (G1; log 6). -/
def fontBytes : List Byte :=
  [0xF0, 0x90, 0x90, 0x90, 0xF0] ++ [0x20, 0x60, 0x20, 0x20, 0x70]
  ++ [0xF0, 0x10, 0xF0, 0x80, 0xF0] ++ [0xF0, 0x10, 0xF0, 0x10, 0xF0]
  ++ [0x90, 0x90, 0xF0, 0x10, 0x10] ++ [0xF0, 0x80, 0xF0, 0x10, 0xF0]
  ++ [0xF0, 0x80, 0xF0, 0x90, 0xF0] ++ [0xF0, 0x10, 0x20, 0x40, 0x40]
  ++ [0xF0, 0x90, 0xF0, 0x90, 0xF0] ++ [0xF0, 0x90, 0xF0, 0x10, 0xF0]
  ++ [0xF0, 0x90, 0xF0, 0x90, 0x90] ++ [0xE0, 0x90, 0xE0, 0x90, 0xE0]
  ++ [0xF0, 0x80, 0x80, 0x80, 0xF0] ++ [0xE0, 0x90, 0x90, 0x90, 0xE0]
  ++ [0xF0, 0x80, 0xF0, 0x80, 0xF0] ++ [0xF0, 0x80, 0xF0, 0x80, 0x80]

/-- The address of digit d's glyph: 0x050 + 5d (R32, R63, D12). -/
def glyphAddr (d : Nat) : Word := BitVec.ofNat 16 (Config.fontBase + 5 * d)

/-- The digit map LoadFont builds (R32, R63). -/
def standardFontLoc : Vector (Option Word) 16 :=
  Vector.ofFn fun d => some (glyphAddr d.val)

/-- What Memory holds at power-on, and so what an unlisted address reads as: the font at 0x050..0x09F, 0x00 elsewhere
(R36, R58, D17; log 8). -/
def powerOnByte (a : Nat) : Byte :=
  if a < Config.fontBase then 0x00 else fontBytes.getD (a - Config.fontBase) 0x00

end Sys2Proof.Machine
end

