-- ==== Sys2Proof/Machine/State.lean ====
section
/-! DEFINITION. The state of the block (10_state.md R20), plain data, and its value at power-on (R36, R322). -/
namespace Sys2Proof.Machine

/-- The execution status (R33). -/
inductive Status where
  | running
  | exited
  | faulted
  deriving DecidableEq, Repr

/-- The fault kinds of 60_exceptions.md R280. -/
inductive FaultKind where
  /-- raised by `Step`: no handler for the word (R281) -/
  | unimplementedOpcode
  /-- raised by `Step` and by host memory transactions: an address of 4096 or more (R281) -/
  | addressOutOfBounds
  /-- raised by CALL with SP = 16 (R281) -/
  | stackOverflow
  /-- raised by RET with SP = 0 (R281) -/
  | stackUnderflow
  /-- raised by SKP, SKNP and LD F on an index outside their 16-entry arrays (R281) -/
  | indexOutOfBounds
  /-- raised by `LoadRom` only (R281) -/
  | romLoadError
  deriving DecidableEq, Repr

/-- The fault record (R34). Its `code` is a function of the kind (`FaultKind.code`), so it is not stored (log 4). -/
structure FaultRecord where
  /-- the kind of R280 -/
  kind   : FaultKind
  /-- the spec's `at`: the address of the instruction whose step faulted (R282) -/
  addr   : Word
  /-- the fetched word, or none when the fetch faulted (R282) -/
  opcode : Option Word
  /-- the opcode, address, SP or index of R282, as an unbounded natural -/
  info   : Nat
  deriving DecidableEq, Repr

/-- Memory: cells in rising address order, none equal to what an unlisted address reads as (`Memory.wf`; log 8). -/
abbrev Memory := List Host.Cell

/-- The framebuffer: cells by index, in rising order, none 0x00 (`Framebuffer.wf`; log 9). -/
abbrev Framebuffer := List Host.Cell

/-- The state of the block: the tuple of R20, and the model's own counter of random draws. -/
structure State where
  /-- V0..VF (R21) -/
  v       : Vector Byte 16
  /-- I (R23) -/
  i       : Word
  /-- the program counter: the address of the next opcode to fetch (R24) -/
  pc      : Word
  /-- SP: the number of occupied stack slots, 0..16 (R27) -/
  sp      : Fin 17
  /-- the return-address stack (R26) -/
  stack   : Vector Word 16
  /-- DT, the delay timer (R28) -/
  dt      : Byte
  /-- ST, the sound timer (R28) -/
  st      : Byte
  /-- the key-state array (R29) -/
  keys    : Vector Bool 16
  /-- Memory (R30) -/
  mem     : Memory
  /-- the Monitor framebuffer (R31) -/
  fb      : Framebuffer
  /-- the digit map `font_loc`; an entry is absent before any LoadFont (R32) -/
  fontLoc : Vector (Option Word) 16
  /-- the execution status (R33) -/
  status  : Status
  /-- the fault record (R34) -/
  fault   : Option FaultRecord
  /-- the model's own: how many bytes RND has drawn, the argument of `Config.rnd` (log 7) -/
  draws   : Nat
  deriving DecidableEq, Repr

/-- The reasons a step could stop the machine with no next state. There is none: every fault of this hardware is an entry into
the status Faulted (R285), which is a next state, and a halted machine's step changes nothing (R287). Safe (log 1). -/
inductive Fault where
  deriving DecidableEq, Repr

/-- The reasons an instruction could have no meaning. -/
inductive Refusal where
  /-- An arm of `exec` that has no meaning yet would raise it. No arm does. Safe (log 17). -/
  | notModelled (mnemonic : String)
  deriving DecidableEq, Repr

/-- What a step or a meaning answers. -/
abbrev Result := Host.Outcome State Fault Refusal

/-- The machine right after power-on (R36, R322; log 5): memory and framebuffer list nothing, so they read as the power-on
contents. -/
def State.reset : State where
  v       := Vector.replicate 16 0x00
  i       := 0x0000
  pc      := 0x200
  sp      := 0
  stack   := Vector.replicate 16 0x0000
  dt      := 0x00
  st      := 0x00
  keys    := Vector.replicate 16 false
  mem     := []
  fb      := []
  fontLoc := standardFontLoc
  status  := .running
  fault   := none
  draws   := 0

end Sys2Proof.Machine
end

