-- ==== Sys2Proof/Machine/Ops.lean ====
section
/-! DEFINITION. The named operations over memory, framebuffer, registers and pc; fault entry (60_exceptions.md R285) and the one
way back from it (R320). -/
namespace Sys2Proof.Machine

/-! ### Sparse arrays of bytes: the common form of Memory and the framebuffer -/

/-- The byte at `a`: the listed one, or `d a` where none is listed. -/
def Cells.read (d : Nat → Byte) : List Host.Cell → Nat → Byte
  | [], a => d a
  | (b, v) :: m, a => if a = b then v else Cells.read d m a

/-- Make `a` read as `v`. A cell that would equal what an unlisted address reads as is not listed. -/
def Cells.write (d : Nat → Byte) : List Host.Cell → Nat → Byte → List Host.Cell
  | [], a, v => if v = d a then [] else [(a, v)]
  | (b, w) :: m, a, v =>
    if a < b then (if v = d a then (b, w) :: m else (a, v) :: (b, w) :: m)
    else if a = b then (if v = d a then m else (a, v) :: m)
    else (b, w) :: Cells.write d m a v

/-- The canonical form from address `lo` up: addresses strictly rising and below `bound`, no cell equal to what an unlisted
address reads as. -/
def Cells.wfFrom (d : Nat → Byte) (bound : Nat) : Nat → List Host.Cell → Bool
  | _, [] => true
  | lo, (b, v) :: m => decide (lo ≤ b) && decide (b < bound) && decide (v ≠ d b) && Cells.wfFrom d bound (b + 1) m

/-! ### Memory (20_memory.md) -/

/-- The byte `mem[a]`. -/
def Memory.read (m : Memory) (a : Nat) : Byte := Cells.read powerOnByte m a

/-- `mem[a] <- v`. -/
def Memory.write (m : Memory) (a : Nat) (v : Byte) : Memory := Cells.write powerOnByte m a v

/-- Memory is in its canonical form: cells rising, below 4096, none equal to its power-on byte. -/
def Memory.wf (m : Memory) : Bool := Cells.wfFrom powerOnByte Config.memSize 0 m

/-- `MemRead(a, 1)`: the byte at `a`, or the out-of-range address (R53). -/
def memRead (m : Memory) (a : Nat) : Except Nat Byte :=
  if a < Config.memSize then .ok (m.read a) else .error a

/-- `MemWrite(a, 1, v)`: the memory after, or the out-of-range address (R53). -/
def memWrite (m : Memory) (a : Nat) (v : Byte) : Except Nat Memory :=
  if a < Config.memSize then .ok (m.write a v) else .error a

/-- `n` bytes from `a` up, in increasing address order, or the first out-of-range address (R190). -/
def readBlock (m : Memory) : Nat → Nat → Except Nat (List Byte)
  | _, 0 => .ok []
  | a, n + 1 =>
    match memRead m a with
    | .error e => .error e
    | .ok b =>
      match readBlock m (a + 1) n with
      | .error e => .error e
      | .ok bs => .ok (b :: bs)

/-- The bytes written from `a` up, in increasing address order, or the first out-of-range address (R190). -/
def writeBlock : Memory → Nat → List Byte → Except Nat Memory
  | m, _, [] => .ok m
  | m, a, b :: bs =>
    match memWrite m a b with
    | .error e => .error e
    | .ok m' => writeBlock m' (a + 1) bs

/-- The opcode at `a`, `mem[a] ++ mem[a+1]`, or the first out-of-range address (R55, R91, R92). -/
def readWord (m : Memory) (a : Nat) : Except Nat Word :=
  match memRead m a with
  | .error e => .error e
  | .ok hi =>
    match memRead m (a + 1) with
    | .error e => .error e
    | .ok lo => .ok (joinBytes hi lo)

/-- The word stored big-endian at `a`, or the out-of-range address with nothing written (R55, R61). -/
def writeWord (m : Memory) (a : Nat) (op : Word) : Except Nat Memory :=
  writeBlock m a [highByte op, lowByte op]

/-! ### The framebuffer (44_display.md) -/

/-- The cell of index `idx`; a cell that is not listed is 0x00 (R31). -/
def Framebuffer.read (f : Framebuffer) (idx : Nat) : Byte := Cells.read (fun _ => 0x00) f idx

/-- `fb[idx] <- v`. -/
def Framebuffer.write (f : Framebuffer) (idx : Nat) (v : Byte) : Framebuffer := Cells.write (fun _ => 0x00) f idx v

/-- The framebuffer is in its canonical form: cells rising, below 2048, none 0x00. -/
def Framebuffer.wf (f : Framebuffer) : Bool := Cells.wfFrom (fun _ => 0x00) Config.fbSize 0 f

/-- `Monitor.clear()`: every cell 0x00 (R222). -/
def Framebuffer.cleared : Framebuffer := []

/-- The index of cell (x, y), each coordinate reduced modulo the screen size (R220). -/
def cellIndex (x y : Nat) : Nat := x % Config.screenW + Config.screenW * (y % Config.screenH)

/-! ### Registers and pc (10_state.md) -/

/-- `V[r]` (R11, R21). -/
def State.getV (s : State) (r : Reg) : Byte := s.v[r.val]

/-- `V[r] <- b` (R11, R21): no register is hard-wired. -/
def State.setV (s : State) (r : Reg) (b : Byte) : State := { s with v := s.v.set r.val b }

/-- `V[x] <- result`, then `VF <- flag`: the flag is written last (R150, D6). -/
def State.setVFlag (s : State) (x : Reg) (result flag : Byte) : State := (s.setV x result).setV regF flag

/-- `V[k] <- bytes[k]` for every k below the list's length (R196). -/
def State.setVBlock (s : State) (bytes : List Byte) : State :=
  { s with v := Vector.ofFn fun r => bytes.getD r.val (s.getV r) }

/-- `I <- w` (R23). -/
def State.setI (s : State) (w : Word) : State := { s with i := w }

/-- `DT <- b` (R28). -/
def State.setDT (s : State) (b : Byte) : State := { s with dt := b }

/-- `ST <- b` (R28). -/
def State.setST (s : State) (b : Byte) : State := { s with st := b }

/-- Replace Memory. -/
def State.setMem (s : State) (m : Memory) : State := { s with mem := m }

/-- Replace the framebuffer. -/
def State.setFb (s : State) (f : Framebuffer) : State := { s with fb := f }

/-- `pc <- target` (R11, R24). -/
def State.jump (s : State) (target : Word) : State := { s with pc := target }

/-- The advance of the fetch, `pc <- a + 2` (R24, R92); every meaning starts with it (log 3). -/
def State.advance (s : State) : State := s.jump (s.pc + 2#16)

/-- A taken skip, `pc <- pc + 2` (R120). -/
def State.skip (s : State) : State := s.jump (s.pc + 2#16)

/-- A skip taken when `c` holds (R120). -/
def State.skipIf (s : State) (c : Bool) : State := if c then s.skip else s

/-- The key wait's rollback, `pc <- pc - 2` (R24, R254, C4). -/
def State.rollback (s : State) : State := s.jump (s.pc - 2#16)

/-- `stack[sp] <- w; SP <- SP + 1`, or none when the stack is full (R27, R124). -/
def State.push (s : State) (w : Word) : Option State :=
  if h : s.sp.val < Config.stackDepth then
    some { s with stack := s.stack.set s.sp.val w, sp := ⟨s.sp.val + 1, Nat.succ_lt_succ h⟩ }
  else none

/-- `SP <- SP - 1` and the word `stack[SP]`, which stays in its slot, or none when the stack is empty (R27, R121, D15). -/
def State.pop (s : State) : Option (Word × State) :=
  if h : 0 < s.sp.val then
    some (s.stack[s.sp.val - 1]'(Nat.lt_of_lt_of_le (Nat.sub_lt h Nat.one_pos) (Nat.le_of_lt_succ s.sp.isLt)),
      { s with sp := ⟨s.sp.val - 1, Nat.lt_of_le_of_lt (Nat.sub_le _ _) s.sp.isLt⟩ })
  else none

/-- `draw_byte()`: the next value of the free parameter `rnd`, and the state that has drawn it (R8, R11, R162; log 7). -/
def State.drawByte (s : State) : Byte × State := (Config.rnd s.draws, { s with draws := s.draws + 1 })

/-- `status <- Exited` (R122). -/
def State.halt (s : State) : State := { s with status := .exited }

/-! ### Faults -/

/-- The code of a fault kind (R280, D32). -/
def FaultKind.code : FaultKind → Nat
  | .unimplementedOpcode => 1
  | .addressOutOfBounds  => 2
  | .stackOverflow       => 3
  | .stackUnderflow      => 4
  | .indexOutOfBounds    => 5
  | .romLoadError        => 6

/-- The code field of a fault record (R34). -/
def FaultRecord.code (r : FaultRecord) : Nat := r.kind.code

/-- The word at `pc`, or none where fetching it faults: the opcode a fault record names (R282). -/
def State.fetchedOpcode (s : State) : Option Word :=
  match readWord s.mem s.pc.toNat with
  | .ok op   => some op
  | .error _ => none

/-- Fault entry (R285): `raise kind(info)` in a step that began in `s` leaves `s` with only `status` and `fault` changed. The pc
stays the address of the faulting instruction, which is the record's `at` (R282). -/
def State.raise (s : State) (kind : FaultKind) (info : Nat) : State :=
  { s with
    status := .faulted
    fault  := some { kind := kind, addr := s.pc, opcode := s.fetchedOpcode, info := info } }

/-- `CpuReset()` (R320, R321): the only way out of Exited and Faulted. Memory, framebuffer, digit map and keys stay, and the
model's draw counter does too, so that no later draw repeats an earlier one (log 7). -/
def State.cpuReset (s : State) : State :=
  { s with
    v      := Vector.replicate 16 0x00
    i      := 0x0000
    pc     := BitVec.ofNat 16 Config.romBase
    sp     := 0
    stack  := Vector.replicate 16 0x0000
    dt     := 0x00
    st     := 0x00
    status := .running
    fault  := none }

end Sys2Proof.Machine
end

