-- ==== Sys2Proof/Machine/Flags.lean ====
section
/-! DEFINITION. The flag computations: what each flag-defining instruction writes to VF (R22, R150), a byte 0x00 or 0x01. -/
namespace Sys2Proof.Machine

/-- A condition as the flag value 0x01 or 0x00 (R150). -/
def flagByte (c : Bool) : Byte := if c then 0x01 else 0x00

/-- The carry out of bit 7 of `a + b`: the sum on naturals is above 0xFF (R157). -/
def carryFlag (a b : Byte) : Byte := flagByte (decide (a.toNat + b.toNat > 0xFF))

/-- The no-borrow flag of `a - b`: 1 when `a >= b`, compared before the subtraction (R158, R160, C9). -/
def noBorrowFlag (a b : Byte) : Byte := flagByte (decide (a.toNat ≥ b.toNat))

/-- The bit a right shift by one moves out, `a & 1` (R159). -/
def shrFlag (a : Byte) : Byte := a &&& 0x01

/-- The bit a left shift by one moves out, `a >> 7` (R161). -/
def shlFlag (a : Byte) : Byte := a >>> 7

end Sys2Proof.Machine
end

