-- ==== Sys2Proof/Machine/Operands.lean ====
section
/-! DEFINITION. The operand forms of the ISA: the zero-extended address, register-indirect addressing through I, the index
operands of the key array and the digit map, and the byte lists the memory instructions move. -/
namespace Sys2Proof.Machine

/-- `zext_16(nnn)` (R82). -/
def zext12 (nnn : Addr12) : Word := nnn.setWidth 16

/-- `zext_16(V[x])` (R192, R129). -/
def zext8 (b : Byte) : Word := b.setWidth 16

/-- The effective address `I + k`, on naturals and never truncated (R54, R190, D4). -/
def effAddr (s : State) (k : Nat) : Nat := s.i.toNat + k

/-- A register value as an index into a 16-entry array, none when it is above 0xF (R193, R251, R252). -/
def asIndex (b : Byte) : Option Reg :=
  if h : b.toNat < 16 then some ⟨b.toNat, h⟩ else none

/-- The state of the key numbered `b`, none when there is no such key (R251). -/
def keyState (s : State) (b : Byte) : Option Bool :=
  match asIndex b with
  | some k => some s.keys[k.val]
  | none   => none

/-- `font_loc[b]`, none when `b` is above 0xF or its entry is absent (R193). -/
def glyphOf (s : State) (b : Byte) : Option Word :=
  match asIndex b with
  | some d => s.fontLoc[d.val]
  | none   => none

/-- `min { j | key[j] }`: the lowest-numbered pressed key, none when no key is pressed (R254, D9). -/
def lowestKey (s : State) : Option Reg :=
  (List.finRange 16).find? fun j => s.keys[j.val]

/-- A key number as the byte written to V[x] (R254). -/
def keyByte (k : Reg) : Byte := BitVec.ofNat 8 k.val

/-- The values of V0..Vx, in order (R195). -/
def regsUpTo (s : State) (x : Reg) : List Byte := s.v.toList.take (x.val + 1)

/-- The three decimal digits of a byte, hundreds first, each a whole byte (R194, D13). -/
def bcdDigits (b : Byte) : List Byte :=
  [BitVec.ofNat 8 (b.toNat / 100), BitVec.ofNat 8 (b.toNat / 10 % 10), BitVec.ofNat 8 (b.toNat % 10)]

end Sys2Proof.Machine
end

