-- ==== Sys2Proof/Machine/Alu.lean ====
section
/-! DEFINITION. Register loads and arithmetic/logic (42_alu.md). Every meaning here goes to the next instruction. -/
namespace Sys2Proof.Machine

/-- A register-only instruction without a flag: `V[x] <- result`. -/
def putReg (s : State) (x : Reg) (result : Byte) : Result := .next (s.advance.setV x result)

/-- A register-only instruction with a flag: `V[x] <- result`, then `VF <- flag` (R150). -/
def putRegFlag (s : State) (x : Reg) (result flag : Byte) : Result := .next (s.advance.setVFlag x result flag)

/-- `LD Vx, kk` (R151). -/
def execLdByte (x : Reg) (kk : Byte) (s : State) : Result := putReg s x kk

/-- `ADD Vx, kk`: modulo 256, no flag (R152). -/
def execAddByte (x : Reg) (kk : Byte) (s : State) : Result := putReg s x (s.getV x + kk)

/-- `LD Vx, Vy` (R153). -/
def execLdReg (x y : Reg) (s : State) : Result := putReg s x (s.getV y)

/-- `OR Vx, Vy`: no flag (R154). -/
def execOrReg (x y : Reg) (s : State) : Result := putReg s x (s.getV x ||| s.getV y)

/-- `AND Vx, Vy` (R155). -/
def execAndReg (x y : Reg) (s : State) : Result := putReg s x (s.getV x &&& s.getV y)

/-- `XOR Vx, Vy` (R156). -/
def execXorReg (x y : Reg) (s : State) : Result := putReg s x (s.getV x ^^^ s.getV y)

/-- `ADD Vx, Vy`: VF is the carry (R157). -/
def execAddReg (x y : Reg) (s : State) : Result :=
  putRegFlag s x (s.getV x + s.getV y) (carryFlag (s.getV x) (s.getV y))

/-- `SUB Vx, Vy`: VF is 1 when Vx >= Vy (R158). -/
def execSubReg (x y : Reg) (s : State) : Result :=
  putRegFlag s x (s.getV x - s.getV y) (noBorrowFlag (s.getV x) (s.getV y))

/-- `SHR Vx`: VF is the old bit 0 (R159). -/
def execShr (x : Reg) (s : State) : Result :=
  putRegFlag s x (s.getV x >>> 1) (shrFlag (s.getV x))

/-- `SUBN Vx, Vy`: Vy - Vx, VF is 1 when Vy >= Vx (R160). -/
def execSubnReg (x y : Reg) (s : State) : Result :=
  putRegFlag s x (s.getV y - s.getV x) (noBorrowFlag (s.getV y) (s.getV x))

/-- `SHL Vx`: VF is the old bit 7 (R161). -/
def execShl (x : Reg) (s : State) : Result :=
  putRegFlag s x (s.getV x <<< 1) (shlFlag (s.getV x))

/-- `RND Vx, kk`: a free byte masked by kk (R162). -/
def execRnd (x : Reg) (kk : Byte) (s : State) : Result := putReg s.drawByte.2 x (s.drawByte.1 &&& kk)

end Sys2Proof.Machine
end

