-- ==== Sys2Proof/Machine/ControlFlow.lean ====
section
/-! DEFINITION. Control flow, stack controller and skips (41_control_flow.md). -/
namespace Sys2Proof.Machine

/-- A conditional skip: `pc` is a + 4 when `c` holds, a + 2 otherwise (R120). -/
def skipWhen (s : State) (c : Bool) : Result := .next (s.advance.skipIf c)

/-- `RET`: pop the return address, or `StackUnderflow(0)` (R121). -/
def execRet (s : State) : Result :=
  match s.pop with
  | some (w, s') => .next (s'.jump w)
  | none         => .next (s.raise .stackUnderflow s.sp.val)

/-- `EXIT`: `status <- Exited`, pc stays a + 2 (R122). -/
def execExit (s : State) : Result := .next s.advance.halt

/-- `JP addr` (R123). -/
def execJp (nnn : Addr12) (s : State) : Result := .next (s.jump (zext12 nnn))

/-- `CALL addr`: push the address of the following instruction and jump, or `StackOverflow(16)` (R124). -/
def execCall (nnn : Addr12) (s : State) : Result :=
  match s.push s.advance.pc with
  | some s' => .next (s'.jump (zext12 nnn))
  | none    => .next (s.raise .stackOverflow s.sp.val)

/-- `SE Vx, kk` (R125). -/
def execSeByte (x : Reg) (kk : Byte) (s : State) : Result := skipWhen s (s.getV x == kk)

/-- `SNE Vx, kk` (R126). -/
def execSneByte (x : Reg) (kk : Byte) (s : State) : Result := skipWhen s (s.getV x != kk)

/-- `SE Vx, Vy` (R127). -/
def execSeReg (x y : Reg) (s : State) : Result := skipWhen s (s.getV x == s.getV y)

/-- `SNE Vx, Vy` (R128). -/
def execSneReg (x y : Reg) (s : State) : Result := skipWhen s (s.getV x != s.getV y)

/-- `JP V0, addr`: the sum fits in 16 bits and is not reduced further (R129). -/
def execJpV0 (nnn : Addr12) (s : State) : Result := .next (s.jump (zext8 (s.getV 0) + zext12 nnn))

end Sys2Proof.Machine
end

