-- ==== Sys2Proof/Machine/Display.lean ====
section
/-! DEFINITION. The XOR-blit pixel engine and the display instructions (44_display.md). -/
namespace Sys2Proof.Machine

/-- `PIXEL_ON` (R221, D8). -/
def pixelOn : Byte := 0x01

/-- A blit in progress: the framebuffer so far, and whether a cell has gone from on to off. -/
abbrev Blit := Framebuffer × Bool

/-- XOR one cell with on; the collision is set when it was nonzero and is now 0x00 (R223). -/
def blitCell (f : Blit) (idx : Nat) : Blit :=
  let old := f.1.read idx
  let new := old ^^^ pixelOn
  (f.1.write idx new, f.2 || (old != 0x00 && new == 0x00))

/-- One sprite byte at row `y`: bit 7 is column x0, bit 0 is column x0 + 7; a 0 bit leaves its cell (R223). -/
def blitRow (x0 y : Nat) (b : Byte) (f : Blit) : Blit :=
  (List.range 8).foldl (fun g c => if b.getLsbD (7 - c) then blitCell g (cellIndex (x0 + c) y) else g) f

/-- The sprite's bytes, one row each, from row `y` down (R223). -/
def blitRows (x0 : Nat) : Nat → List Byte → Blit → Blit
  | _, [], f => f
  | y, b :: bs, f => blitRows x0 (y + 1) bs (blitRow x0 y b f)

/-- `DrawSprite(x0, y0, s)`: the framebuffer after, and `collided` (R223). -/
def drawSprite (f : Framebuffer) (x0 y0 : Nat) (sprite : List Byte) : Blit :=
  blitRows x0 y0 sprite (f, false)

/-- `CLS` (R226). -/
def execCls (s : State) : Result := .next (s.advance.setFb Framebuffer.cleared)

/-- `DRW Vx, Vy, n`: n bytes from I, drawn at (Vx, Vy) read before VF is written, VF the collision; or `AddressOutOfBounds`
with no cell and no register written (R227). -/
def execDrw (x y : Reg) (n : Nibble) (s : State) : Result :=
  match readBlock s.mem (effAddr s 0) n.toNat with
  | .ok sprite =>
    let r := drawSprite s.fb (s.getV x).toNat (s.getV y).toNat sprite
    .next ((s.advance.setFb r.1).setV regF (flagByte r.2))
  | .error a => .next (s.raise .addressOutOfBounds a)

end Sys2Proof.Machine
end

