-- ==== Sys2Proof/Machine/IndexMemory.lean ====
section
/-! DEFINITION. Index register, font lookup, BCD and register-block transfers (43_index_memory.md). No memory instruction
changes I (R190, D14). -/
namespace Sys2Proof.Machine

/-- Store the bytes at I, I+1, ...; on an address of 4096 or more raise `AddressOutOfBounds` with nothing written (R190). -/
def storeAtI (s : State) (bytes : List Byte) : Result :=
  match writeBlock s.mem (effAddr s 0) bytes with
  | .ok m    => .next (s.advance.setMem m)
  | .error a => .next (s.raise .addressOutOfBounds a)

/-- `LD I, addr` (R191). -/
def execLdI (nnn : Addr12) (s : State) : Result := .next (s.advance.setI (zext12 nnn))

/-- `ADD I, Vx`: modulo 2^16, VF not written (R192). -/
def execAddI (x : Reg) (s : State) : Result := .next (s.advance.setI (s.i + zext8 (s.getV x)))

/-- `LD F, Vx`: I points at the glyph, or `IndexOutOfBounds` (R193). -/
def execLdFont (x : Reg) (s : State) : Result :=
  match glyphOf s (s.getV x) with
  | some w => .next (s.advance.setI w)
  | none   => .next (s.raise .indexOutOfBounds (s.getV x).toNat)

/-- `LD B, Vx`: the three decimal digits at I, I+1, I+2 (R194). -/
def execLdBcd (x : Reg) (s : State) : Result := storeAtI s (bcdDigits (s.getV x))

/-- `LD [I], Vx`: V0..Vx at I..I+x (R195). -/
def execStoreRegs (x : Reg) (s : State) : Result := storeAtI s (regsUpTo s x)

/-- `LD Vx, [I]`: V0..Vx from I..I+x, or `AddressOutOfBounds` with no register written (R196). -/
def execLoadRegs (x : Reg) (s : State) : Result :=
  match readBlock s.mem (effAddr s 0) (x.val + 1) with
  | .ok bytes => .next (s.advance.setVBlock bytes)
  | .error a  => .next (s.raise .addressOutOfBounds a)

end Sys2Proof.Machine
end

