-- ==== Sys2Proof/Machine/TimersKeys.lean ====
section
/-! DEFINITION. Key tests, key wait and timer access (45_timers_keys.md). -/
namespace Sys2Proof.Machine

/-- Skip when the key numbered `V[x]` is in the state `want`, or `IndexOutOfBounds` when there is no such key (R251, R252). -/
def skipOnKey (s : State) (x : Reg) (want : Bool) : Result :=
  match keyState s (s.getV x) with
  | some pressed => .next (s.advance.skipIf (pressed == want))
  | none         => .next (s.raise .indexOutOfBounds (s.getV x).toNat)

/-- `SKP Vx` (R251). -/
def execSkp (x : Reg) (s : State) : Result := skipOnKey s x true

/-- `SKNP Vx` (R252). -/
def execSknp (x : Reg) (s : State) : Result := skipOnKey s x false

/-- `LD Vx, DT` (R253). -/
def execLdFromDt (x : Reg) (s : State) : Result := .next (s.advance.setV x s.dt)

/-- `LD Vx, K`: the lowest pressed key, or the pc rolled back so that the instruction is fetched again (R254). -/
def execLdKey (x : Reg) (s : State) : Result :=
  match lowestKey s with
  | some k => .next (s.advance.setV x (keyByte k))
  | none   => .next s.advance.rollback

/-- `LD DT, Vx` (R255). -/
def execLdDt (x : Reg) (s : State) : Result := .next (s.advance.setDT (s.getV x))

/-- `LD ST, Vx` (R256). -/
def execLdSt (x : Reg) (s : State) : Result := .next (s.advance.setST (s.getV x))

end Sys2Proof.Machine
end

