-- ==== Sys2Proof/Machine/Fetch.lean ====
section
/-! DEFINITION. Fetch and decode of one step (30_encoding.md R92, R93), what a halted machine's step does, and placing a word
where the next step fetches. -/
namespace Sys2Proof.Machine

/-- Fetch at `pc` and decode: the instruction, or the fault kind and its information (R92, R93, R282, R286). -/
def fetchDecode (s : State) : Except (FaultKind × Nat) Instr :=
  match readWord s.mem s.pc.toNat with
  | .error a => .error (.addressOutOfBounds, a)
  | .ok op =>
    match decodeWord op with
    | none   => .error (.unimplementedOpcode, op.toNat)
    | some i => .ok i

/-- A step of an exited or faulted machine changes nothing (R93, R287; log 10). -/
def haltedStep (s : State) : Result := .next s

/-- The word stored big-endian at `a` where both its bytes are inside Memory; nothing stored otherwise. -/
def placeWord (m : Memory) (a : Nat) (op : Word) : Memory :=
  match writeWord m a op with
  | .ok m'   => m'
  | .error _ => m

end Sys2Proof.Machine
end

