-- ==== Sys2Proof/Machine/Step.lean ====
section
/-! DEFINITION. `Step()` (30_encoding.md R93) as a function of the state. What it returns to the host is
`Sys2Proof.Machine.stepResult` (Machine/Transactions.lean). -/
namespace Sys2Proof.Machine

/-- One step: nothing when exited or faulted; else fetch, decode and execute, a fault of fetch or decode being taken by
`State.raise` (R93, R285). -/
def step (s : State) : Host.Outcome State Fault Refusal :=
  match s.status with
  | .exited  => haltedStep s
  | .faulted => haltedStep s
  | .running =>
    match fetchDecode s with
    | .error (kind, info) => .next (s.raise kind info)
    | .ok i               => exec i s

/-- `s` with the word of the low `nbits` bits of `w` stored big-endian at `pc`, where `step` fetches. It changes memory only, so
the step runs the word when `s` is Running and its pc is at most 0xFFE (log 11). -/
def State.withFetchWord (s : State) (nbits w : Nat) : State :=
  s.setMem (placeWord s.mem s.pc.toNat (tableWord nbits w))

end Sys2Proof.Machine
end

