-- ==== Sys2Proof/Machine/Disassembly.lean ====
section
/-! DEFINITION. Disassembly (30_encoding.md R94 to R98): the string of each instruction, from the opcode bits alone. -/
namespace Sys2Proof.Machine

/-- One uppercase hex digit (R96). -/
def hexDigit (n : Nat) : Char := "0123456789ABCDEF".toList.getD (n % 16) '?'

/-- A register operand: `V` and its hex digit (R96). -/
def regText (r : Reg) : String := String.ofList ['V', hexDigit r.val]

/-- A byte immediate: `0x` and two hex digits (R96). -/
def byteText (b : Byte) : String := String.ofList ['0', 'x', hexDigit (b.toNat / 16), hexDigit b.toNat]

/-- An address: `0x` and three hex digits (R96). -/
def addrText (a : Addr12) : String :=
  String.ofList ['0', 'x', hexDigit (a.toNat / 256), hexDigit (a.toNat / 16), hexDigit a.toNat]

/-- The nibble of DRW: `0x` and one hex digit (R96). -/
def nibbleText (n : Nibble) : String := String.ofList ['0', 'x', hexDigit n.toNat]

/-- The operands separated by a comma and a space (R96). -/
def joinOperands : List String → String
  | []            => ""
  | [o]           => o
  | o :: p :: os  => o ++ ", " ++ joinOperands (p :: os)

/-- The mnemonic padded with spaces to 5 characters and its operands; alone when there is none (R96). -/
def asmLine (mnemonic : String) (operands : List String) : String :=
  match operands with
  | [] => mnemonic
  | _  => mnemonic ++ String.ofList (List.replicate (5 - mnemonic.toList.length) ' ') ++ joinOperands operands

/-- The disassembly string of each instruction (R97, D23). -/
def Instr.text : Instr → String
  | .cls           => asmLine "CLS" []
  | .ret           => asmLine "RET" []
  | .exit          => asmLine "EXIT" []
  | .jp nnn        => asmLine "JP" [addrText nnn]
  | .call nnn      => asmLine "CALL" [addrText nnn]
  | .seByte x kk   => asmLine "SE" [regText x, byteText kk]
  | .sneByte x kk  => asmLine "SNE" [regText x, byteText kk]
  | .seReg x y     => asmLine "SE" [regText x, regText y]
  | .sneReg x y    => asmLine "SNE" [regText x, regText y]
  | .ldByte x kk   => asmLine "LD" [regText x, byteText kk]
  | .addByte x kk  => asmLine "ADD" [regText x, byteText kk]
  | .ldReg x y     => asmLine "LD" [regText x, regText y]
  | .orReg x y     => asmLine "OR" [regText x, regText y]
  | .andReg x y    => asmLine "AND" [regText x, regText y]
  | .xorReg x y    => asmLine "XOR" [regText x, regText y]
  | .addReg x y    => asmLine "ADD" [regText x, regText y]
  | .subReg x y    => asmLine "SUB" [regText x, regText y]
  | .shr x         => asmLine "SHR" [regText x]
  | .subnReg x y   => asmLine "SUBN" [regText x, regText y]
  | .shl x         => asmLine "SHL" [regText x]
  | .ldI nnn       => asmLine "LD" ["I", addrText nnn]
  | .jpV0 nnn      => asmLine "JP" ["V0", addrText nnn]
  | .rnd x kk      => asmLine "RND" [regText x, byteText kk]
  | .drw x y n     => asmLine "DRW" [regText x, regText y, nibbleText n]
  | .skp x         => asmLine "SKP" [regText x]
  | .sknp x        => asmLine "SKNP" [regText x]
  | .ldFromDt x    => asmLine "LD" [regText x, "DT"]
  | .ldKey x       => asmLine "LD" [regText x, "K"]
  | .ldDt x        => asmLine "LD" ["DT", regText x]
  | .ldSt x        => asmLine "LD" ["ST", regText x]
  | .addI x        => asmLine "ADD" ["I", regText x]
  | .ldFont x      => asmLine "LD" ["F", regText x]
  | .ldBcd x       => asmLine "LD" ["B", regText x]
  | .storeRegs x   => asmLine "LD" ["[I]", regText x]
  | .loadRegs x    => asmLine "LD" [regText x, "[I]"]

/-- `Disassemble(op)`: the string of the instruction the word decodes to, none for an unmapped word (R94). -/
def disassemble (op : Word) : Option String :=
  match decodeWord op with
  | some i => some (Instr.text i)
  | none   => none

end Sys2Proof.Machine
end

