-- ==== Sys2Proof/Machine/Transactions.lean ====
section
/-! DEFINITION. The host's transactions (00_scope.md R10): what each does to the state and what it returns to the host. The host's
schedule is a list of them (R8, D29; log 12). -/
namespace Sys2Proof.Machine

/-- What `Step()` returns to the host (R93, R285). -/
inductive StepResult where
  /-- the instruction completed -/
  | ok
  /-- the machine had exited before the step -/
  | exited
  /-- this step raised the fault -/
  | fault (r : FaultRecord)
  /-- the machine was faulted before the step: its recorded fault, which is there in every reachable state (log 19) -/
  | refused (r : Option FaultRecord)
  deriving DecidableEq, Repr

/-- What `ReadState()` returns (R296). -/
structure StateView where
  v      : Vector Byte 16
  i      : Word
  pc     : Word
  sp     : Fin 17
  stack  : Vector Word 16
  dt     : Byte
  st     : Byte
  status : Status
  fault  : Option FaultRecord
  deriving DecidableEq, Repr

/-- The transactions of R10 with their arguments. Addresses and coordinates are naturals of any size. -/
inductive Transaction where
  | step
  | runCycles (n : Nat)
  /-- `RunFor(ms)`, with the number of steps it performs, `k_runFor`, which the machine does not choose (R8, R333, D21) -/
  | runFor (ms k : Nat)
  | updateTimers
  | cpuReset
  | memoryReset
  | monitorReset
  | loadFont
  | loadRom (bytes : List Byte)
  | storeOpcode (a : Nat) (op : Word)
  | readByte (a : Nat)
  | writeByte (a : Nat) (b : Byte)
  | getPixel (x y : Nat)
  | setPixel (x y : Nat) (b : Byte)
  | readFramebuffer
  | setKeys (k : Vector Bool 16)
  | peekOpcode
  | opcodeAt (a : Nat)
  | disassemble (op : Word)
  | disassembleAt (a : Nat)
  | readState
  deriving DecidableEq, Repr

/-- What a transaction returns to the host. -/
inductive Reply where
  /-- the transaction has no result -/
  | done
  /-- what `Step` returns -/
  | stepped (r : StepResult)
  /-- what `RunCycles` and `RunFor` return: the fault they stopped at, if any (R330; log 13) -/
  | ran (fault : Option FaultRecord)
  /-- a host transaction failed and wrote no state (R62, R284) -/
  | failed (kind : FaultKind) (info : Nat)
  | byte (b : Byte)
  | bytes (bs : List Byte)
  | opcode (op : Word)
  | text (t : Option String)
  | view (s : StateView)
  deriving DecidableEq, Repr

/-! ### Stepping (R93, R330, R333) -/

/-- The state after `Step()`. Every step has a next state; the other two answers, which no step gives, would leave the state. -/
def stepState (s : State) : State :=
  match step s with
  | .next t    => t
  | .fault _   => s
  | .refused _ => s

/-- What `Step()` returns (R93): of a running machine, the fault it raises if it becomes faulted, else ok. -/
def stepResult (s : State) : StepResult :=
  match s.status with
  | .exited  => .exited
  | .faulted => .refused s.fault
  | .running =>
    match (stepState s).status, (stepState s).fault with
    | .faulted, some r => .fault r
    | _, _             => .ok

/-- `RunCycles(n)`: n steps, stopping at a step that faults (or at a machine already faulted) with that fault; the steps of an
exited machine change nothing (R330, D26). -/
def runCycles : Nat → State → Option FaultRecord × State
  | 0, s => (none, s)
  | n + 1, s =>
    match stepResult s with
    | .fault r   => (some r, stepState s)
    | .refused r => (r, stepState s)
    | .ok        => runCycles n (stepState s)
    | .exited    => runCycles n (stepState s)

/-! ### The timers, reset and loading -/

/-- One timer counted down, never below 0 (R28, R291). -/
def countDown (b : Byte) : Byte := if b.toNat > 0 then b - 1 else b

/-- `UpdateTimers()`, in every status (R291, D25). -/
def updateTimers (s : State) : State := (s.setDT (countDown s.dt)).setST (countDown s.st)

/-- Memory with every byte 0x00, the font region included (R59, D18): the power-on memory with its font overwritten. -/
def zeroMemory : Memory :=
  match writeBlock [] Config.fontBase (List.replicate fontBytes.length 0x00) with
  | .ok m    => m
  | .error _ => []

/-- `LoadFont()`: the 80 font bytes and the digit map (R63). -/
def loadFont (s : State) : State :=
  match writeBlock s.mem Config.fontBase fontBytes with
  | .ok m    => { s.setMem m with fontLoc := standardFontLoc }
  | .error _ => s

/-- A memory access of the host: the new memory, or the failure with no state written (R62, R284, D24). -/
def hostWrite (s : State) (r : Except Nat Memory) : Reply × State :=
  match r with
  | .ok m    => (.done, s.setMem m)
  | .error a => (.failed .addressOutOfBounds a, s)

/-- `LoadRom(bytes)` (R60, D27). -/
def loadRom (s : State) (bytes : List Byte) : Reply × State :=
  if romWellFormed bytes then hostWrite s (writeBlock s.mem Config.romBase bytes)
  else (.failed .romLoadError bytes.length, s)

/-- `StoreOpcode(a, op)`: fails with the first of a, a+1 that is out of range, and writes nothing then (R61). -/
def storeOpcode (s : State) (a : Nat) (op : Word) : Reply × State :=
  hostWrite s (writeWord s.mem a op)

/-- The word at `a` for the host, or the failure (R91). -/
def hostWord (s : State) (a : Nat) : Reply :=
  match readWord s.mem a with
  | .ok op   => .opcode op
  | .error e => .failed .addressOutOfBounds e

/-- `ReadByte(a)` (R62). -/
def hostByte (s : State) (a : Nat) : Reply :=
  match memRead s.mem a with
  | .ok b    => .byte b
  | .error e => .failed .addressOutOfBounds e

/-- `DisassembleAt(a)`: none when a byte of the word is outside Memory (R95). -/
def disassembleAt (s : State) (a : Nat) : Option String :=
  match readWord s.mem a with
  | .ok op   => disassemble op
  | .error _ => none

/-! ### The framebuffer and the state, for the host -/

/-- `GetPixel(x, y)`, coordinates wrapped (R220, R228). -/
def getPixel (s : State) (x y : Nat) : Byte := s.fb.read (cellIndex x y)

/-- `SetPixel(x, y, b)`, coordinates wrapped (R220, R228, D30). -/
def setPixel (s : State) (x y : Nat) (b : Byte) : State := s.setFb (s.fb.write (cellIndex x y) b)

/-- `ReadFramebuffer()`: the 2048 cells in index order (R228). -/
def readFramebuffer (s : State) : List Byte := (List.range Config.fbSize).map s.fb.read

/-- `SetKeys(k)`: all sixteen key states at once (R250). -/
def setKeys (s : State) (k : Vector Bool 16) : State := { s with keys := k }

/-- `ReadState()` (R296). -/
def readState (s : State) : StateView where
  v      := s.v
  i      := s.i
  pc     := s.pc
  sp     := s.sp
  stack  := s.stack
  dt     := s.dt
  st     := s.st
  status := s.status
  fault  := s.fault

/-! ### The interface -/

/-- One transaction: what it returns and the state it leaves (R10). -/
def perform (s : State) : Transaction → Reply × State
  | .step              => (.stepped (stepResult s), stepState s)
  | .runCycles n       => (.ran (runCycles n s).1, (runCycles n s).2)
  | .runFor _ k        => (.ran (runCycles k s).1, (runCycles k s).2)
  | .updateTimers      => (.done, updateTimers s)
  | .cpuReset          => (.done, s.cpuReset)
  | .memoryReset       => (.done, s.setMem zeroMemory)
  | .monitorReset      => (.done, s.setFb Framebuffer.cleared)
  | .loadFont          => (.done, loadFont s)
  | .loadRom bytes     => loadRom s bytes
  | .storeOpcode a op  => storeOpcode s a op
  | .readByte a        => (hostByte s a, s)
  | .writeByte a b     => hostWrite s (memWrite s.mem a b)
  | .getPixel x y      => (.byte (getPixel s x y), s)
  | .setPixel x y b    => (.done, setPixel s x y b)
  | .readFramebuffer   => (.bytes (readFramebuffer s), s)
  | .setKeys k         => (.done, setKeys s k)
  | .peekOpcode        => (hostWord s s.pc.toNat, s)
  | .opcodeAt a        => (hostWord s a, s)
  | .disassemble op    => (.text (Sys2Proof.Machine.disassemble op), s)
  | .disassembleAt a   => (.text (disassembleAt s a), s)
  | .readState         => (.view (readState s), s)

/-- A schedule of the host: its transactions one after another (R10, R64, D29). -/
def runSchedule (s : State) : List Transaction → State
  | []      => s
  | t :: ts => runSchedule (perform s t).2 ts

end Sys2Proof.Machine
end

