-- ==== Sys2Proof/Safety.lean ====
section
/-! DEFINITION. What claims call a good state and a safe run: the invariant every transaction keeps, the pixel invariant every
step keeps, and a run that raises no fault. -/
namespace Sys2Proof.Machine

/-- The invariant of the machine. SP in 0..16 (R27, R130) is its type. -/
structure State.Inv (s : State) : Prop where
  /-- Memory keeps its canonical form, below 4096 (R50) -/
  mem_wf      : Memory.wf s.mem = true
  /-- the framebuffer keeps its canonical form, below 2048 (R31, R220) -/
  fb_wf       : Framebuffer.wf s.fb = true
  /-- the largest value pc can hold (R25) -/
  pc_le       : s.pc.toNat ≤ 0x10FE
  /-- no stack slot is above the largest return address (R25, R121) -/
  stack_le    : ∀ j : Fin 16, (s.stack[j.val]).toNat ≤ 0x1000
  /-- a digit's entry, where present, is its glyph's address (R32) -/
  font_loc    : ∀ d : Fin 16, s.fontLoc[d.val] = none ∨ s.fontLoc[d.val] = some (BitVec.ofNat 16 (0x050 + 5 * d.val))
  /-- a fault is recorded exactly while the machine is Faulted (R33, R34, R287) -/
  fault_iff   : s.fault.isSome = true ↔ s.status = .faulted
  /-- the recorded fault is of a step, at the current pc (R280, R282, R285) -/
  fault_shape : ∀ r, s.fault = some r → r.kind ≠ .romLoadError ∧ r.addr = s.pc

/-- Every cell is 0x00 or 0x01 (R221). -/
def State.PixelsBinary (s : State) : Prop := ∀ idx, s.fb.read idx = 0x00 ∨ s.fb.read idx = 0x01

/-- The run of `k` steps from `s` raises no fault: every state on it is Running or Exited. -/
def SafeRun : Nat → State → Prop
  | 0, s     => s.status ≠ .faulted
  | k + 1, s => s.status ≠ .faulted ∧ SafeRun k (stepState s)

end Sys2Proof.Machine
end

