-- ==== Sys2Proof/Certificates/Slice0/Obligations.lean ====
section
/-! DEFINITION. The statements for the provers, and the words they are written in: what is left unchanged, what a fault entry
leaves, which instruction raises what, and the picture a sprite draws. -/
namespace Sys2Proof.Machine

/-! ### Frames -/

/-- The parts of the state a frame speaks of: all of it but the program counter. -/
inductive Part where
  | regs | index | sp | stack | delay | sound | keys | memory | display | fontMap | status | faultRecord | draws
  deriving DecidableEq, Repr

/-- A part is the same in two states. Memory and the framebuffer are compared through the read of one byte. -/
def Unchanged : Part → State → State → Prop
  | .regs, s, t        => ∀ r, t.getV r = s.getV r
  | .index, s, t       => t.i = s.i
  | .sp, s, t          => t.sp = s.sp
  | .stack, s, t       => ∀ j : Fin 16, t.stack[j.val] = s.stack[j.val]
  | .delay, s, t       => t.dt = s.dt
  | .sound, s, t       => t.st = s.st
  | .keys, s, t        => ∀ j : Fin 16, t.keys[j.val] = s.keys[j.val]
  | .memory, s, t      => ∀ a, t.mem.read a = s.mem.read a
  | .display, s, t     => ∀ idx, t.fb.read idx = s.fb.read idx
  | .fontMap, s, t     => ∀ d : Fin 16, t.fontLoc[d.val] = s.fontLoc[d.val]
  | .status, s, t      => t.status = s.status
  | .faultRecord, s, t => t.fault = s.fault
  | .draws, s, t       => t.draws = s.draws

/-- Every part outside the list is unchanged. -/
def KeepsAllBut (parts : List Part) (s t : State) : Prop := ∀ p, p ∉ parts → Unchanged p s t

/-- The instruction wrote `b` to `V[x]`, went to the next instruction and changed nothing else. -/
def WritesReg (x : Reg) (b : Byte) (s t : State) : Prop :=
  t.getV x = b ∧ (∀ r, r ≠ x → t.getV r = s.getV r) ∧ t.pc = s.pc + 2 ∧ KeepsAllBut [.regs] s t

/-- The instruction wrote `b` to `V[x]` and then `flag` to VF (so VF ends as the flag when x = 0xF), went to the next
instruction and changed nothing else. -/
def WritesRegAndFlag (x : Reg) (b flag : Byte) (s t : State) : Prop :=
  t.getV 0xF = flag ∧ (x ≠ 0xF → t.getV x = b) ∧ (∀ r, r ≠ x → r ≠ 0xF → t.getV r = s.getV r) ∧
    t.pc = s.pc + 2 ∧ KeepsAllBut [.regs] s t

/-- The instruction left `pc` as `target` and changed nothing else. -/
def OnlyMovesPc (target : Word) (s t : State) : Prop := t.pc = target ∧ KeepsAllBut [] s t

/-- A word of the row (match, mask) of R86 decodes to the instruction with the fields read from it. -/
def DecodesAs (matchBits mask : Word) (mk : Word → Instr) : Prop :=
  ∀ op : Word, op &&& mask = matchBits → decodeWord op = some (mk op)

/-! ### Faults -/

/-- The opcode at `pc`, none when a byte of it is outside Memory. -/
def opcodeAtPc (s : State) : Option Word :=
  if s.pc.toNat + 1 < 4096 then some (joinBytes (s.mem.read s.pc.toNat) (s.mem.read (s.pc.toNat + 1))) else none

/-- The state of R285: `s` with only `status` and `fault` changed. -/
def faultedFrom (s : State) (kind : FaultKind) (info : Nat) : State :=
  { s with status := .faulted, fault := some { kind := kind, addr := s.pc, opcode := opcodeAtPc s, info := info } }

/-- The instructions' causes of a fault (R281). -/
def Raises : Instr → State → Prop
  | .call _, s      => s.sp.val = 16
  | .ret, s         => s.sp.val = 0
  | .skp x, s       => 0xF < (s.getV x).toNat
  | .sknp x, s      => 0xF < (s.getV x).toNat
  | .ldFont x, s    => ∀ d : Fin 16, d.val = (s.getV x).toNat → s.fontLoc[d.val] = none
  | .drw _ _ n, s   => n ≠ 0 ∧ 4096 < effAddr s n.toNat
  | .ldBcd _, s     => 4096 < effAddr s 3
  | .storeRegs x, s => 4096 < effAddr s (x.val + 1)
  | .loadRegs x, s  => 4096 < effAddr s (x.val + 1)
  | .cls, _ | .exit, _ | .jp _, _ | .seByte _ _, _ | .sneByte _ _, _ | .seReg _ _, _ | .sneReg _ _, _ => False
  | .ldByte _ _, _ | .addByte _ _, _ | .ldReg _ _, _ | .orReg _ _, _ | .andReg _ _, _ | .xorReg _ _, _ => False
  | .addReg _ _, _ | .subReg _ _, _ | .shr _, _ | .subnReg _ _, _ | .shl _, _ | .ldI _, _ | .jpV0 _, _ => False
  | .rnd _ _, _ | .ldFromDt _, _ | .ldKey _, _ | .ldDt _, _ | .ldSt _, _ | .addI _, _ => False

/-! ### The picture of a sprite -/

/-- Whether a 1 bit of the sprite drawn at (x0, y0) falls on the cell `idx`: its column is 0..7 right of x0 and its row is a row
of the sprite below y0, both modulo the screen (R220, R223). -/
def spriteCovers (x0 y0 : Nat) (sprite : List Byte) (idx : Nat) : Bool :=
  let c := (idx % 64 + 64 - x0 % 64) % 64
  let r := (idx / 64 + 32 - y0 % 32) % 32
  decide (c < 8) && (sprite.getD r 0).getLsbD (7 - c)

/-- The bytes `mem[a], ..., mem[a+n-1]`. -/
def bytesAt (s : State) (a n : Nat) : List Byte := (List.range n).map fun k => s.mem.read (a + k)

/-! ### Code that was stored -/

/-- The byte at `a` once `bytes` are stored over `m` from `base` up: a stored one, or the old one outside them. -/
def storedOver (m : Memory) (base : Nat) (bytes : List Byte) (a : Nat) : Byte :=
  if base ≤ a ∧ a < base + bytes.length then bytes.getD (a - base) 0 else m.read a

/-- `t`, reached from `s` by storing `bytes` from `base` up, runs next the instruction that those bytes, with the old ones around them,
spell at its pc: both, one or none of the opcode's bytes may be stored ones. -/
def NextStepRunsStored (base : Nat) (bytes : List Byte) (s t : State) : Prop :=
  ∀ i : Instr, t.status = .running → t.pc.toNat + 1 < 4096 →
    decodeWord (joinBytes (storedOver s.mem base bytes t.pc.toNat) (storedOver s.mem base bytes (t.pc.toNat + 1))) = some i →
    step t = exec i t

end Sys2Proof.Machine

open Sys2Proof Sys2Proof.Machine

/-! ### Encoding -/

/-- Decoding the bytes of an instruction gives it back and leaves the bytes after it, for all 35 instructions and every operand.
The encoder's zeros in ignored bits are the model's choice (log 15). -/
def Obligations.DecodeOfEncodeIsIdentity : Prop :=
  ∀ (i : Instr) (rest : List Byte), decode (encodeBytes i ++ rest) = .ok (i, rest)

/-- Encoding what a word decodes to gives the word back but for the bits the registry ignores (30_encoding.md R87). -/
def Obligations.EncodeKeepsExaminedBits : Prop :=
  ∀ (op : Word) (i : Instr), decodeWord op = some i → encode i = op &&& i.examinedBits

/-- The registry tree selects exactly what the match and mask of the opcode table select: a decoded word is of its row, and a word
a row selects decodes to an instruction of that row and of no other row. -/
def Obligations.DecodeFollowsOpcodeTable : Prop :=
  (∀ (op : Word) (i : Instr), decodeWord op = some i → i.row.selects op = true) ∧
  (∀ (op : Word) (r : OpcodeRow), r ∈ opcodeTable → r.selects op = true →
    ∃ i, decodeWord op = some i ∧ i.row = r ∧ ∀ r' ∈ opcodeTable, r'.selects op = true → r' = r)

/-- The unmapped words, family by family (30_encoding.md R89). -/
def Obligations.UnmappedWordsAreTheListed : Prop :=
  ∀ op : Word, decodeWord op = none ↔
    (op.toNat / 0x1000 = 0x0 ∧ op.toNat % 0x100 ∉ [0xE0, 0xEE, 0xFD]) ∨
    (op.toNat / 0x1000 = 0x8 ∧ op.toNat % 0x10 ∈ [0x8, 0x9, 0xA, 0xB, 0xC, 0xD, 0xF]) ∨
    (op.toNat / 0x1000 = 0xE ∧ op.toNat % 0x100 ∉ [0x9E, 0xA1]) ∨
    (op.toNat / 0x1000 = 0xF ∧ op.toNat % 0x100 ∉ [0x07, 0x0A, 0x15, 0x18, 0x1E, 0x29, 0x33, 0x55, 0x65])

/-- Words of each family written out from R86's patterns decode to their instructions; unmapped words and one byte do not. -/
def Obligations.KnownWordsDecode : Prop :=
  decode [0b00000001, 0b11100000] = .ok (.cls, []) ∧
  decode [0b00010010, 0b10100000] = .ok (.jp 0x2A0, []) ∧
  decode [0b01101010, 0b00000111] = .ok (.ldByte 0xA 0x07, []) ∧
  decode [0b10000011, 0b01110100] = .ok (.addReg 3 7, []) ∧
  decode [0b10100001, 0b00100011] = .ok (.ldI 0x123, []) ∧
  decode [0b11010001, 0b00101111] = .ok (.drw 1 2 0xF, []) ∧
  decode [0b11100011, 0b10011110] = .ok (.skp 3, []) ∧
  decode [0b11110010, 0b01010101] = .ok (.storeRegs 2, []) ∧
  decode [0x01, 0x23] = .error (.unimplementedOpcode 0x0123) ∧
  decode [0x80] = .error .truncated

/-- Byte order: an opcode read from memory has its high byte at the lower address, and a stored opcode puts it there
(20_memory.md R55). -/
def Obligations.OpcodesAreBigEndian : Prop :=
  (∀ (m : Memory) (a : Nat), a + 1 < 4096 →
    ∃ op, readWord m a = .ok op ∧ op.toNat = 256 * (m.read a).toNat + (m.read (a + 1)).toNat) ∧
  (∀ (s : State) (a : Nat) (op : Word), a + 1 < 4096 → Memory.wf s.mem = true →
    ∃ t, perform s (.storeOpcode a op) = (.done, t) ∧
      (t.mem.read a).toNat = op.toNat / 256 ∧ (t.mem.read (a + 1)).toNat = op.toNat % 256)

/-- Disassembly is a function of the opcode bits: a string when the word decodes, none otherwise, in every state the same and
with no side effect (30_encoding.md R94), with two of the source's own strings. -/
def Obligations.DisassemblyIsPure : Prop :=
  ∀ (s : State) (op : Word),
    (∀ i, decodeWord op = some i → perform s (.disassemble op) = (.text (some (Instr.text i)), s)) ∧
    (decodeWord op = none → perform s (.disassemble op) = (.text none, s)) ∧
    disassemble 0x6A07 = some "LD   VA, 0x07" ∧ disassemble 0x8374 = some "ADD  V3, V7"

/-! ### The step -/

/-- When the bytes at pc decode to an instruction, the step of a running machine is that instruction's `exec` (30_encoding.md
R93), which includes moving pc past the word (log 3). -/
def Obligations.StepRunsDecodedInstruction : Prop :=
  ∀ (s : State) (i : Instr), s.status = .running → s.pc.toNat + 1 < 4096 →
    decode [s.mem.read s.pc.toNat, s.mem.read (s.pc.toNat + 1)] = .ok (i, []) → step s = exec i s

/-- A fetch at or above 0xFFF and an unmapped word fault, and the fault entry is all that happens (30_encoding.md R92, R89, R93). -/
def Obligations.FetchAndDecodeFaults : Prop :=
  (∀ s : State, s.status = .running → 0xFFF ≤ s.pc.toNat →
    step s = .next (faultedFrom s .addressOutOfBounds (max s.pc.toNat 4096)) ∧ opcodeAtPc s = none) ∧
  (∀ (s : State) (op : Word), s.status = .running → opcodeAtPc s = some op → decodeWord op = none →
    step s = .next (faultedFrom s .unimplementedOpcode op.toNat))

/-- A step of an exited or faulted machine changes nothing and returns Exited, or the recorded fault (30_encoding.md R93). -/
def Obligations.HaltedMachineStaysPut : Prop :=
  ∀ s : State,
    (s.status = .exited → step s = .next s ∧ stepResult s = .exited) ∧
    (s.status = .faulted → step s = .next s ∧ stepResult s = .refused s.fault)

/-- Every step of every state has a next state: the machine never stops with no state, and no instruction is refused. -/
def Obligations.EveryStepHasNextState : Prop :=
  (∀ s : State, ∃ t, step s = .next t) ∧ (∀ (i : Instr) (s : State), ∃ t, exec i s = .next t)

/-- Faults are precise: a step of a running machine that ends Faulted is the fault entry alone, with the record at the
instruction's address, of a kind `Step` raises, and returns that fault (60_exceptions.md R285, R282, R280). -/
def Obligations.FaultsArePrecise : Prop :=
  ∀ s t : State, s.status = .running → step s = .next t → t.status = .faulted →
    ∃ kind info, t = faultedFrom s kind info ∧ kind ≠ .romLoadError ∧
      stepResult s = .fault { kind := kind, addr := s.pc, opcode := opcodeAtPc s, info := info }

/-- A step of a running machine faults exactly for the causes of R281: the fetch, the decode, or the instruction's own cause. -/
def Obligations.FaultCausesAreTheListed : Prop :=
  ∀ s t : State, s.status = .running → step s = .next t →
    (t.status = .faulted ↔
      match opcodeAtPc s with
      | none => True
      | some op =>
        match decodeWord op with
        | none   => True
        | some i => Raises i s)

/-- A byte stored by `StoreOpcode`, `WriteByte`, `LoadRom`, `LD [I], Vx` or `LD B, Vx` is what the next fetch reads, wherever the store
overlaps the next opcode (20_memory.md R66). A store that faults leaves no running machine. -/
def Obligations.FetchSeesStores : Prop :=
  ∀ s : State, Memory.wf s.mem = true →
    (∀ (a : Nat) (op : Word), a + 1 < 4096 →
      NextStepRunsStored a [highByte op, lowByte op] s (perform s (.storeOpcode a op)).2) ∧
    (∀ (a : Nat) (b : Byte), a < 4096 → NextStepRunsStored a [b] s (perform s (.writeByte a b)).2) ∧
    (∀ bytes : List Byte, bytes.length ≤ 3584 → NextStepRunsStored 0x200 bytes s (perform s (.loadRom bytes)).2) ∧
    (∀ (x : Reg) (t : State), exec (.storeRegs x) s = .next t → NextStepRunsStored (effAddr s 0) (regsUpTo s x) s t) ∧
    (∀ (x : Reg) (t : State), exec (.ldBcd x) s = .next t →
      NextStepRunsStored (effAddr s 0) (bcdDigits (s.getV x)) s t)

/-! ### Invariants -/

/-- The power-on state meets the invariant, and its pixels are binary. -/
def Obligations.ResetMeetsInvariant : Prop := State.reset.Inv ∧ State.reset.PixelsBinary

/-- Every step from every state that meets the invariant leaves a state that meets it. -/
def Obligations.StepKeepsInvariant : Prop :=
  ∀ s t : State, s.Inv → step s = .next t → t.Inv

/-- Every finite schedule of the host's transactions, from every state that meets the invariant, leaves a state that meets it. -/
def Obligations.SchedulesKeepInvariant : Prop :=
  ∀ (ts : List Transaction) (s : State), s.Inv → (runSchedule s ts).Inv

/-- The core never makes a cell other than 0x00 or 0x01: from binary pixels, every schedule that writes no pixel itself leaves
binary pixels (44_display.md R221). -/
def Obligations.PixelsStayBinary : Prop :=
  ∀ (ts : List Transaction) (s : State), s.Inv → s.PixelsBinary → (∀ x y b, Transaction.setPixel x y b ∉ ts) →
    (runSchedule s ts).PixelsBinary

/-- The power-on values (10_state.md R36). The font region holds `fontBytes`, whose values are PRESUMED: R63 marks them as general
knowledge (log 6). `draws` is the model's own (log 7) and not stated here. -/
def Obligations.PowerOnState : Prop :=
  (∀ r, State.reset.getV r = 0) ∧ State.reset.i = 0 ∧ State.reset.pc = 0x200 ∧ State.reset.sp.val = 0 ∧
  (∀ j : Fin 16, State.reset.stack[j.val] = 0) ∧ State.reset.dt = 0 ∧ State.reset.st = 0 ∧
  (∀ j : Fin 16, State.reset.keys[j.val] = false) ∧
  (∀ a, a < 0x050 ∨ 0x09F < a → State.reset.mem.read a = 0) ∧
  (∀ k, k < 80 → State.reset.mem.read (0x050 + k) = fontBytes.getD k 0) ∧ (∀ idx, State.reset.fb.read idx = 0) ∧
  (∀ d : Fin 16, ∃ w : Word, State.reset.fontLoc[d.val] = some w ∧ w.toNat = 0x050 + 5 * d.val) ∧
  State.reset.status = .running ∧ State.reset.fault = none

/-! ### Register loads and arithmetic/logic -/

/-- `LD Vx, kk` and `ADD Vx, kk` (42_alu.md R151, R152): VF changes only as the destination. -/
def Obligations.ByteLoadAndByteAdd : Prop :=
  DecodesAs 0x6000 0xF000 (fun op => .ldByte (opX op) (opKK op)) ∧
  DecodesAs 0x7000 0xF000 (fun op => .addByte (opX op) (opKK op)) ∧
  (∀ x kk s, ∃ t, exec (.ldByte x kk) s = .next t ∧ WritesReg x kk s t) ∧
  (∀ x kk s, ∃ t, exec (.addByte x kk) s = .next t ∧
    WritesReg x (BitVec.ofNat 8 (((s.getV x).toNat + kk.toNat) % 256)) s t)

/-- `LD Vx, Vy`, `AND Vx, Vy`, `XOR Vx, Vy` (42_alu.md R153, R155, R156), bit by bit. -/
def Obligations.RegisterCopyAndAndXor : Prop :=
  DecodesAs 0x8000 0xF00F (fun op => .ldReg (opX op) (opY op)) ∧
  DecodesAs 0x8002 0xF00F (fun op => .andReg (opX op) (opY op)) ∧
  DecodesAs 0x8003 0xF00F (fun op => .xorReg (opX op) (opY op)) ∧
  (∀ x y s, ∃ t, exec (.ldReg x y) s = .next t ∧ WritesReg x (s.getV y) s t) ∧
  (∀ x y s, ∃ b t, exec (.andReg x y) s = .next t ∧ WritesReg x b s t ∧
    ∀ k, k < 8 → b.getLsbD k = ((s.getV x).getLsbD k && (s.getV y).getLsbD k)) ∧
  (∀ x y s, ∃ b t, exec (.xorReg x y) s = .next t ∧ WritesReg x b s t ∧
    ∀ k, k < 8 → b.getLsbD k = ((s.getV x).getLsbD k != (s.getV y).getLsbD k))

/-- `OR Vx, Vy` (42_alu.md R154), which writes no flag. -/
def Obligations.RegisterOrWithoutFlag : Prop :=
  DecodesAs 0x8001 0xF00F (fun op => .orReg (opX op) (opY op)) ∧
  (∀ x y s, ∃ b t, exec (.orReg x y) s = .next t ∧ WritesReg x b s t ∧
    ∀ k, k < 8 → b.getLsbD k = ((s.getV x).getLsbD k || (s.getV y).getLsbD k))

/-- `ADD Vx, Vy` (42_alu.md R157): the sum modulo 256, VF the carry, written last. -/
def Obligations.RegisterAddWithCarry : Prop :=
  DecodesAs 0x8004 0xF00F (fun op => .addReg (opX op) (opY op)) ∧
  (∀ x y s, ∃ b flag t, exec (.addReg x y) s = .next t ∧ WritesRegAndFlag x b flag s t ∧
    b.toNat = ((s.getV x).toNat + (s.getV y).toNat) % 256 ∧
    flag.toNat = if (s.getV x).toNat + (s.getV y).toNat > 0xFF then 1 else 0)

/-- `SUB Vx, Vy` and `SUBN Vx, Vy` (42_alu.md R158, R160): subtraction modulo 256, VF 1 when no borrow, written last (D6). -/
def Obligations.SubtractionsWithNoBorrowFlag : Prop :=
  DecodesAs 0x8005 0xF00F (fun op => .subReg (opX op) (opY op)) ∧
  DecodesAs 0x8007 0xF00F (fun op => .subnReg (opX op) (opY op)) ∧
  (∀ x y s, ∃ b flag t, exec (.subReg x y) s = .next t ∧ WritesRegAndFlag x b flag s t ∧
    b.toNat = ((s.getV x).toNat + 256 - (s.getV y).toNat) % 256 ∧
    flag.toNat = if (s.getV y).toNat ≤ (s.getV x).toNat then 1 else 0) ∧
  (∀ x y s, ∃ b flag t, exec (.subnReg x y) s = .next t ∧ WritesRegAndFlag x b flag s t ∧
    b.toNat = ((s.getV y).toNat + 256 - (s.getV x).toNat) % 256 ∧
    flag.toNat = if (s.getV x).toNat ≤ (s.getV y).toNat then 1 else 0)

/-- `SHR Vx` and `SHL Vx` (42_alu.md R159, R161): a shift of Vx by one, whatever y is, VF the bit shifted out, written last (D6). -/
def Obligations.ShiftsByOne : Prop :=
  DecodesAs 0x8006 0xF00F (fun op => .shr (opX op)) ∧
  DecodesAs 0x800E 0xF00F (fun op => .shl (opX op)) ∧
  (∀ x s, ∃ b flag t, exec (.shr x) s = .next t ∧ WritesRegAndFlag x b flag s t ∧
    b.toNat = (s.getV x).toNat / 2 ∧ flag.toNat = (s.getV x).toNat % 2) ∧
  (∀ x s, ∃ b flag t, exec (.shl x) s = .next t ∧ WritesRegAndFlag x b flag s t ∧
    b.toNat = 2 * (s.getV x).toNat % 256 ∧ flag.toNat = (s.getV x).toNat / 128)

/-- `RND Vx, kk` (42_alu.md R162): the next free byte masked by kk. It holds for every value of the free parameter and of the
model's draw counter (log 7). -/
def Obligations.RandomByteMasked : Prop :=
  DecodesAs 0xC000 0xF000 (fun op => .rnd (opX op) (opKK op)) ∧
  (∀ x kk s, ∃ b t, exec (.rnd x kk) s = .next t ∧ t.getV x = b ∧
    (∀ k, k < 8 → b.getLsbD k = ((Config.rnd s.draws).getLsbD k && kk.getLsbD k)) ∧
    (∀ r, r ≠ x → t.getV r = s.getV r) ∧ t.pc = s.pc + 2 ∧ t.draws = s.draws + 1 ∧ KeepsAllBut [.regs, .draws] s t)

/-! ### Control flow -/

/-- `JP addr` (41_control_flow.md R123), with its corner cases: a jump to itself changes nothing, and a jump to 0xFFF completes, the
next fetch faulting. -/
def Obligations.JumpSetsPc : Prop :=
  DecodesAs 0x1000 0xF000 (fun op => .jp (opNNN op)) ∧
  (∀ nnn s, ∃ t, exec (.jp nnn) s = .next t ∧ t.pc.toNat = nnn.toNat ∧ KeepsAllBut [] s t) ∧
  (∀ (nnn : Addr12) (s : State), s.pc.toNat = nnn.toNat → exec (.jp nnn) s = .next s) ∧
  (∀ s : State, s.status = .running → ∃ t, exec (.jp 0xFFF) s = .next t ∧
    step t = .next (faultedFrom t .addressOutOfBounds 4096)) ∧
  disassemble 0x12A0 = some "JP   0x2A0"

/-- `JP V0, addr` (41_control_flow.md R129): the sum of V0 and nnn, not truncated. -/
def Obligations.JumpPlusV0SetsPc : Prop :=
  DecodesAs 0xB000 0xF000 (fun op => .jpV0 (opNNN op)) ∧
  (∀ nnn s, ∃ t, exec (.jpV0 nnn) s = .next t ∧ t.pc.toNat = (s.getV 0).toNat + nnn.toNat ∧ KeepsAllBut [] s t)

/-- `CALL addr` (41_control_flow.md R124): with room on the stack it pushes the next instruction's address and jumps; with SP = 16
it faults and nothing else changes. -/
def Obligations.CallPushesAndJumps : Prop :=
  DecodesAs 0x2000 0xF000 (fun op => .call (opNNN op)) ∧
  (∀ nnn s, s.sp.val < 16 → ∃ t, exec (.call nnn) s = .next t ∧ t.pc.toNat = nnn.toNat ∧ t.sp.val = s.sp.val + 1 ∧
    (∀ j : Fin 16, t.stack[j.val] = if j.val = s.sp.val then s.pc + 2 else s.stack[j.val]) ∧
    KeepsAllBut [.sp, .stack] s t) ∧
  (∀ nnn s, s.sp.val = 16 → exec (.call nnn) s = .next (faultedFrom s .stackOverflow 16))

/-- `RET` (41_control_flow.md R121): pops the innermost return address, whose slot keeps its value; with SP = 0 it faults and
nothing else changes. -/
def Obligations.ReturnPopsAddress : Prop :=
  DecodesAs 0x00EE 0xF0FF (fun _ => .ret) ∧
  (∀ (s : State) (j : Fin 16), s.sp.val = j.val + 1 → ∃ t, exec .ret s = .next t ∧ t.pc = s.stack[j.val] ∧
    t.sp.val = j.val ∧ KeepsAllBut [.sp] s t) ∧
  (∀ s : State, s.sp.val = 0 → exec .ret s = .next (faultedFrom s .stackUnderflow 0))

/-- A CALL, the steps between undone, and the matching RET: RET after CALL gives back the pc after the CALL and the SP before it
(41_control_flow.md R121, R124). -/
def Obligations.ReturnUndoesCall : Prop :=
  ∀ (nnn : Addr12) (s t u : State), s.sp.val < 16 → exec (.call nnn) s = .next t → u.sp = t.sp → u.stack = t.stack →
    ∃ w, exec .ret u = .next w ∧ w.pc = s.pc + 2 ∧ w.sp = s.sp

/-- `EXIT` (41_control_flow.md R122): the status becomes Exited, pc goes to the next word, nothing else changes. -/
def Obligations.ExitHaltsMachine : Prop :=
  DecodesAs 0x00FD 0xF0FF (fun _ => .exit) ∧
  (∀ s : State, ∃ t, exec .exit s = .next t ∧ t.status = .exited ∧ t.pc = s.pc + 2 ∧ KeepsAllBut [.status] s t)

/-- `SE Vx, kk` and `SNE Vx, kk` (41_control_flow.md R125, R126): a taken skip leaves pc = a + 4, an untaken one a + 2. -/
def Obligations.SkipsOnByte : Prop :=
  DecodesAs 0x3000 0xF000 (fun op => .seByte (opX op) (opKK op)) ∧
  DecodesAs 0x4000 0xF000 (fun op => .sneByte (opX op) (opKK op)) ∧
  (∀ x kk s, ∃ t, exec (.seByte x kk) s = .next t ∧
    OnlyMovesPc (if s.getV x = kk then s.pc + 4 else s.pc + 2) s t) ∧
  (∀ x kk s, ∃ t, exec (.sneByte x kk) s = .next t ∧
    OnlyMovesPc (if s.getV x = kk then s.pc + 2 else s.pc + 4) s t)

/-- `SE Vx, Vy` and `SNE Vx, Vy` (41_control_flow.md R127, R128), whatever the low nibble of the word is. -/
def Obligations.SkipsOnRegister : Prop :=
  DecodesAs 0x5000 0xF000 (fun op => .seReg (opX op) (opY op)) ∧
  DecodesAs 0x9000 0xF000 (fun op => .sneReg (opX op) (opY op)) ∧
  (∀ x y s, ∃ t, exec (.seReg x y) s = .next t ∧
    OnlyMovesPc (if s.getV x = s.getV y then s.pc + 4 else s.pc + 2) s t) ∧
  (∀ x y s, ∃ t, exec (.sneReg x y) s = .next t ∧
    OnlyMovesPc (if s.getV x = s.getV y then s.pc + 2 else s.pc + 4) s t)

/-! ### Index register and memory -/

/-- `LD I, addr` (43_index_memory.md R191). -/
def Obligations.IndexLoad : Prop :=
  DecodesAs 0xA000 0xF000 (fun op => .ldI (opNNN op)) ∧
  (∀ nnn s, ∃ t, exec (.ldI nnn) s = .next t ∧ t.i.toNat = nnn.toNat ∧ t.pc = s.pc + 2 ∧ KeepsAllBut [.index] s t) ∧
  disassemble 0xA123 = some "LD   I, 0x123"

/-- `ADD I, Vx` (43_index_memory.md R192): modulo 2^16, VF not written. -/
def Obligations.IndexAdd : Prop :=
  DecodesAs 0xF01E 0xF0FF (fun op => .addI (opX op)) ∧
  (∀ x s, ∃ t, exec (.addI x) s = .next t ∧ t.i.toNat = (s.i.toNat + (s.getV x).toNat) % 65536 ∧ t.pc = s.pc + 2 ∧
    KeepsAllBut [.index] s t)

/-- `LD F, Vx` (43_index_memory.md R193): I becomes the digit's entry; a value that is no digit, or a digit with no entry,
faults and nothing else changes. -/
def Obligations.FontLookup : Prop :=
  DecodesAs 0xF029 0xF0FF (fun op => .ldFont (opX op)) ∧
  (∀ (x : Reg) (s : State) (d : Fin 16) (w : Word), (s.getV x).toNat = d.val → s.fontLoc[d.val] = some w →
    ∃ t, exec (.ldFont x) s = .next t ∧ t.i = w ∧ t.pc = s.pc + 2 ∧ KeepsAllBut [.index] s t) ∧
  (∀ (x : Reg) (s : State), Raises (.ldFont x) s →
    exec (.ldFont x) s = .next (faultedFrom s .indexOutOfBounds (s.getV x).toNat))

/-- `LD B, Vx` (43_index_memory.md R194): the decimal digits at I, I+1, I+2, hundreds first; every other byte is as before; an
address of 4096 or more faults with no byte written. -/
def Obligations.DecimalStore : Prop :=
  DecodesAs 0xF033 0xF0FF (fun op => .ldBcd (opX op)) ∧
  (∀ (x : Reg) (s : State), Memory.wf s.mem = true → effAddr s 3 ≤ 4096 → ∃ t, exec (.ldBcd x) s = .next t ∧
    (t.mem.read (effAddr s 0)).toNat = (s.getV x).toNat / 100 ∧
    (t.mem.read (effAddr s 1)).toNat = (s.getV x).toNat / 10 % 10 ∧
    (t.mem.read (effAddr s 2)).toNat = (s.getV x).toNat % 10 ∧
    (∀ a, a < effAddr s 0 ∨ effAddr s 3 ≤ a → t.mem.read a = s.mem.read a) ∧
    t.pc = s.pc + 2 ∧ KeepsAllBut [.memory] s t) ∧
  (∀ (x : Reg) (s : State), 4096 < effAddr s 3 →
    exec (.ldBcd x) s = .next (faultedFrom s .addressOutOfBounds (max (effAddr s 0) 4096)))

/-- `LD [I], Vx` (43_index_memory.md R195): V0..Vx at I..I+x; every other byte is as before; an address of 4096 or more faults with
no byte written. -/
def Obligations.RegisterBlockStore : Prop :=
  DecodesAs 0xF055 0xF0FF (fun op => .storeRegs (opX op)) ∧
  (∀ (x : Reg) (s : State), Memory.wf s.mem = true → effAddr s (x.val + 1) ≤ 4096 →
    ∃ t, exec (.storeRegs x) s = .next t ∧
    (∀ r : Reg, r ≤ x → t.mem.read (effAddr s r.val) = s.getV r) ∧
    (∀ a, a < effAddr s 0 ∨ effAddr s (x.val + 1) ≤ a → t.mem.read a = s.mem.read a) ∧
    t.pc = s.pc + 2 ∧ KeepsAllBut [.memory] s t) ∧
  (∀ (x : Reg) (s : State), 4096 < effAddr s (x.val + 1) →
    exec (.storeRegs x) s = .next (faultedFrom s .addressOutOfBounds (max (effAddr s 0) 4096)))

/-- `LD Vx, [I]` (43_index_memory.md R196): V0..Vx from I..I+x, the registers above x as before; an address of 4096 or more faults
with no register written. -/
def Obligations.RegisterBlockLoad : Prop :=
  DecodesAs 0xF065 0xF0FF (fun op => .loadRegs (opX op)) ∧
  (∀ (x : Reg) (s : State), effAddr s (x.val + 1) ≤ 4096 → ∃ t, exec (.loadRegs x) s = .next t ∧
    (∀ r : Reg, t.getV r = if r ≤ x then s.mem.read (effAddr s r.val) else s.getV r) ∧
    t.pc = s.pc + 2 ∧ KeepsAllBut [.regs] s t) ∧
  (∀ (x : Reg) (s : State), 4096 < effAddr s (x.val + 1) →
    exec (.loadRegs x) s = .next (faultedFrom s .addressOutOfBounds (max (effAddr s 0) 4096)))

/-! ### Display -/

/-- `CLS` and `MonitorReset` (44_display.md R226, R222): all 2048 cells 0x00, VF not written. -/
def Obligations.ClearScreen : Prop :=
  DecodesAs 0x00E0 0xF0FF (fun _ => .cls) ∧
  (∀ s : State, ∃ t, exec .cls s = .next t ∧ (∀ idx, t.fb.read idx = 0x00) ∧ t.pc = s.pc + 2 ∧
    KeepsAllBut [.display] s t) ∧
  (∀ s : State, ∃ t, perform s .monitorReset = (.done, t) ∧ (∀ idx, t.fb.read idx = 0x00) ∧ t.pc = s.pc ∧
    KeepsAllBut [.display] s t)

/-- `DRW Vx, Vy, n` (44_display.md R227): the blit loop draws the picture `spriteCovers` describes, XORing 0x01 into exactly the
covered cells, and VF is 1 exactly when a covered cell went from on to off (it held 0x01); an address of 4096 or more faults with no
cell and no register written. -/
def Obligations.DrawXorsThePicture : Prop :=
  DecodesAs 0xD000 0xF000 (fun op => .drw (opX op) (opY op) (opN op)) ∧
  (∀ (x y : Reg) (n : Nibble) (s : State), Framebuffer.wf s.fb = true → ¬ Raises (.drw x y n) s →
    ∃ t, exec (.drw x y n) s = .next t ∧
      (∀ idx, idx < 2048 → t.fb.read idx =
        if spriteCovers (s.getV x).toNat (s.getV y).toNat (bytesAt s (effAddr s 0) n.toNat) idx = true
        then s.fb.read idx ^^^ 0x01 else s.fb.read idx) ∧
      (t.getV 0xF = 0x01 ∨ t.getV 0xF = 0x00) ∧
      (t.getV 0xF = 0x01 ↔ ∃ idx, idx < 2048 ∧ s.fb.read idx = 0x01 ∧
        spriteCovers (s.getV x).toNat (s.getV y).toNat (bytesAt s (effAddr s 0) n.toNat) idx = true) ∧
      (∀ r, r ≠ 0xF → t.getV r = s.getV r) ∧ t.pc = s.pc + 2 ∧ KeepsAllBut [.regs, .display] s t) ∧
  (∀ (x y : Reg) (n : Nibble) (s : State), Raises (.drw x y n) s →
    exec (.drw x y n) s = .next (faultedFrom s .addressOutOfBounds (max (effAddr s 0) 4096)))

/-! ### Timers and keys -/

/-- `SKP Vx` and `SKNP Vx` (45_timers_keys.md R251, R252): a skip on the key's state; no such key faults and nothing else
changes. -/
def Obligations.SkipsOnKey : Prop :=
  DecodesAs 0xE09E 0xF0FF (fun op => .skp (opX op)) ∧
  DecodesAs 0xE0A1 0xF0FF (fun op => .sknp (opX op)) ∧
  (∀ (x : Reg) (s : State) (k : Fin 16), (s.getV x).toNat = k.val →
    (∃ t, exec (.skp x) s = .next t ∧ OnlyMovesPc (if s.keys[k.val] = true then s.pc + 4 else s.pc + 2) s t) ∧
    (∃ t, exec (.sknp x) s = .next t ∧ OnlyMovesPc (if s.keys[k.val] = true then s.pc + 2 else s.pc + 4) s t)) ∧
  (∀ (x : Reg) (s : State), 0xF < (s.getV x).toNat →
    exec (.skp x) s = .next (faultedFrom s .indexOutOfBounds (s.getV x).toNat) ∧
    exec (.sknp x) s = .next (faultedFrom s .indexOutOfBounds (s.getV x).toNat))

/-- `LD Vx, DT`, `LD DT, Vx`, `LD ST, Vx` (45_timers_keys.md R253, R255, R256). -/
def Obligations.TimerAccess : Prop :=
  DecodesAs 0xF007 0xF0FF (fun op => .ldFromDt (opX op)) ∧
  DecodesAs 0xF015 0xF0FF (fun op => .ldDt (opX op)) ∧
  DecodesAs 0xF018 0xF0FF (fun op => .ldSt (opX op)) ∧
  (∀ x s, ∃ t, exec (.ldFromDt x) s = .next t ∧ WritesReg x s.dt s t) ∧
  (∀ x s, ∃ t, exec (.ldDt x) s = .next t ∧ t.dt = s.getV x ∧ t.pc = s.pc + 2 ∧ KeepsAllBut [.delay] s t) ∧
  (∀ x s, ∃ t, exec (.ldSt x) s = .next t ∧ t.st = s.getV x ∧ t.pc = s.pc + 2 ∧ KeepsAllBut [.sound] s t)

/-- `LD Vx, K` with a key pressed (45_timers_keys.md R254): Vx becomes the lowest-numbered pressed key. -/
def Obligations.KeyWaitEnds : Prop :=
  DecodesAs 0xF00A 0xF0FF (fun op => .ldKey (opX op)) ∧
  (∀ (x : Reg) (s : State) (k : Fin 16), s.keys[k.val] = true → (∀ j : Fin 16, j < k → s.keys[j.val] = false) →
    ∃ t, exec (.ldKey x) s = .next t ∧ WritesReg x (BitVec.ofNat 8 k.val) s t)

/-- `LD Vx, K` with no key pressed is an ordinary completion and no fault: pc is rolled back to the instruction, nothing changes and
`Step` returns ok (60_exceptions.md R283). -/
def Obligations.KeyWaitRetries : Prop :=
  (∀ (x : Reg) (s : State), (∀ j : Fin 16, s.keys[j.val] = false) → exec (.ldKey x) s = .next s) ∧
  (∀ (x : Reg) (s : State) (op : Word), s.status = .running → opcodeAtPc s = some op → decodeWord op = some (.ldKey x) →
    (∀ j : Fin 16, s.keys[j.val] = false) → step s = .next s ∧ stepResult s = .ok)

/-! ### Whole-machine rules -/

/-- VF changes only by the six instructions that define a flag or by an instruction that names VF as its destination
(10_state.md R22). -/
def Obligations.OnlyFlagInstructionsWriteVF : Prop :=
  ∀ (i : Instr) (s t : State), exec i s = .next t → t.getV 0xF ≠ s.getV 0xF →
    match i with
    | .addReg _ _ | .subReg _ _ | .shr _ | .subnReg _ _ | .shl _ | .drw _ _ _ => True
    | .ldByte x _ | .addByte x _ | .ldReg x _ | .orReg x _ | .andReg x _ | .xorReg x _ => x = 0xF
    | .rnd x _ | .ldFromDt x | .ldKey x | .loadRegs x => x = 0xF
    | _ => False

/-- I is written by LD I, ADD I and LD F alone (10_state.md R23). -/
def Obligations.OnlyIndexInstructionsWriteI : Prop :=
  ∀ (i : Instr) (s t : State), exec i s = .next t → t.i ≠ s.i →
    (∃ nnn, i = .ldI nnn) ∨ (∃ x, i = .addI x) ∨ (∃ x, i = .ldFont x)

/-- The stack is written by CALL alone and SP by CALL and RET alone; SP never leaves 0..16, a full CALL and an empty RET
raising their faults with SP and stack as before (10_state.md R26, R27). -/
def Obligations.StackDiscipline : Prop :=
  (∀ (i : Instr) (s t : State), exec i s = .next t → t.stack ≠ s.stack → ∃ nnn, i = .call nnn) ∧
  (∀ (i : Instr) (s t : State), exec i s = .next t → t.sp ≠ s.sp → i = .ret ∨ ∃ nnn, i = .call nnn) ∧
  (∀ (nnn : Addr12) (s t : State), s.sp.val = 16 → exec (.call nnn) s = .next t →
    t.status = .faulted ∧ t.sp = s.sp ∧ t.stack = s.stack) ∧
  (∀ s t : State, s.sp.val = 0 → exec .ret s = .next t → t.status = .faulted ∧ t.sp = s.sp ∧ t.stack = s.stack)

/-- No instruction but LD DT writes DT, none but LD ST writes ST, and none reads ST: what ST holds changes nothing else an
instruction does (10_state.md R28). -/
def Obligations.TimersOutsideTheInstructionLoop : Prop :=
  (∀ (i : Instr) (s t : State), exec i s = .next t → t.dt ≠ s.dt → ∃ x, i = .ldDt x ∧ t.dt = s.getV x) ∧
  (∀ (i : Instr) (s t : State), exec i s = .next t → t.st ≠ s.st → ∃ x, i = .ldSt x ∧ t.st = s.getV x) ∧
  (∀ (i : Instr) (s t : State) (b : Byte), exec i s = .next t →
    ∃ u, exec i (s.setST b) = .next u ∧ u.setST 0 = t.setST 0)

/-- No instruction writes the keys or the digit map (10_state.md R29, R32). -/
def Obligations.KeysAndFontMapAreReadOnly : Prop :=
  ∀ (i : Instr) (s t : State), exec i s = .next t → t.keys = s.keys ∧ t.fontLoc = s.fontLoc

/-- Memory is written by LD B and LD [I] alone (20_memory.md R51). -/
def Obligations.OnlyStoresWriteMemory : Prop :=
  ∀ (i : Instr) (s t : State) (a : Nat), exec i s = .next t → t.mem.read a ≠ s.mem.read a →
    (∃ x, i = .ldBcd x) ∨ (∃ x, i = .storeRegs x)

/-- The framebuffer is written by CLS and DRW alone and read by DRW alone: what it holds changes nothing else any other
instruction does (44_display.md R225). -/
def Obligations.OnlyDisplayInstructionsUseTheFramebuffer : Prop :=
  (∀ (i : Instr) (s t : State) (idx : Nat), exec i s = .next t → t.fb.read idx ≠ s.fb.read idx →
    i = .cls ∨ ∃ x y n, i = .drw x y n) ∧
  (∀ (i : Instr) (s t : State) (f : Framebuffer), (∀ x y n, i ≠ .drw x y n) → exec i s = .next t →
    ∃ u, exec i (s.setFb f) = .next u ∧ u.setFb [] = t.setFb [] ∧ (u.fb = f ∨ i = .cls ∧ u.fb = t.fb))

/-! ### Host transactions -/

/-- `UpdateTimers()` in every status (60_exceptions.md R291). -/
def Obligations.UpdateTimersCountsDown : Prop :=
  ∀ s : State, ∃ t, perform s .updateTimers = (.done, t) ∧
    t.dt.toNat = (if s.dt.toNat > 0 then s.dt.toNat - 1 else 0) ∧
    t.st.toNat = (if s.st.toNat > 0 then s.st.toNat - 1 else 0) ∧
    t.pc = s.pc ∧ KeepsAllBut [.delay, .sound] s t

/-- `CpuReset()` in every status (70_reset_and_hazards.md R320, R321). -/
def Obligations.CpuResetRestartsAndKeepsMemory : Prop :=
  ∀ s : State, ∃ t, perform s .cpuReset = (.done, t) ∧ (∀ r, t.getV r = 0) ∧ t.i = 0 ∧ t.pc = 0x200 ∧ t.sp.val = 0 ∧
    (∀ j : Fin 16, t.stack[j.val] = 0) ∧ t.dt = 0 ∧ t.st = 0 ∧ t.status = .running ∧ t.fault = none ∧
    Unchanged .memory s t ∧ Unchanged .display s t ∧ Unchanged .fontMap s t ∧ Unchanged .keys s t ∧ Unchanged .draws s t

/-- `LoadRom(bytes)` (20_memory.md R60): a ROM of at most 3584 bytes is at 0x200 byte for byte and nothing else changes; a longer one
fails with RomLoadError and writes nothing. -/
def Obligations.LoadRomWritesTheRom : Prop :=
  (∀ (s : State) (bytes : List Byte), Memory.wf s.mem = true → bytes.length ≤ 3584 →
    ∃ t, perform s (.loadRom bytes) = (.done, t) ∧
      (∀ j, j < bytes.length → t.mem.read (0x200 + j) = bytes.getD j 0) ∧
      (∀ a, a < 0x200 ∨ 0x200 + bytes.length ≤ a → t.mem.read a = s.mem.read a) ∧
      t.pc = s.pc ∧ KeepsAllBut [.memory] s t) ∧
  (∀ (s : State) (bytes : List Byte), 3584 < bytes.length →
    perform s (.loadRom bytes) = (.failed .romLoadError bytes.length, s))

/-- `WriteByte`, `ReadByte`, `StoreOpcode` (20_memory.md R61, R62): inside Memory a written byte is read back, a stored opcode's two
bytes are where R55 puts them, and no other byte changes; outside it each fails with AddressOutOfBounds and writes nothing. -/
def Obligations.HostMemoryAccess : Prop :=
  (∀ (s : State) (a : Nat) (b : Byte), Memory.wf s.mem = true → a < 4096 →
    ∃ t, perform s (.writeByte a b) = (.done, t) ∧ perform t (.readByte a) = (.byte b, t) ∧
      (∀ a', a' ≠ a → t.mem.read a' = s.mem.read a') ∧ t.pc = s.pc ∧ KeepsAllBut [.memory] s t) ∧
  (∀ (s : State) (a : Nat) (b : Byte), 4096 ≤ a →
    perform s (.writeByte a b) = (.failed .addressOutOfBounds a, s) ∧
    perform s (.readByte a) = (.failed .addressOutOfBounds a, s)) ∧
  (∀ (s : State) (a : Nat) (op : Word), Memory.wf s.mem = true → a + 1 < 4096 →
    ∃ t, perform s (.storeOpcode a op) = (.done, t) ∧ t.mem.read a = highByte op ∧ t.mem.read (a + 1) = lowByte op ∧
      (∀ a', a' ≠ a → a' ≠ a + 1 → t.mem.read a' = s.mem.read a') ∧ t.pc = s.pc ∧ KeepsAllBut [.memory] s t) ∧
  (∀ (s : State) (a : Nat) (op : Word), 4096 ≤ a + 1 →
    perform s (.storeOpcode a op) = (.failed .addressOutOfBounds (max a 4096), s))

/-- `MemoryReset()` and `LoadFont()` (20_memory.md R59, R63): every byte 0x00 and the digit map as before; then every digit's entry at
0x050 + 5d, the font region holds `fontBytes`, and no byte outside 0x050..0x09F changed. The values of `fontBytes` are PRESUMED: R63
marks them as general knowledge (log 6). -/
def Obligations.MemoryResetAndLoadFont : Prop :=
  (∀ s : State, ∃ t, perform s .memoryReset = (.done, t) ∧ (∀ a, a < 4096 → t.mem.read a = 0x00) ∧ t.pc = s.pc ∧
    KeepsAllBut [.memory] s t) ∧
  (∀ s : State, ∃ t, perform s .loadFont = (.done, t) ∧
    (∀ a, a < 0x050 ∨ 0x09F < a → t.mem.read a = s.mem.read a) ∧
    (Memory.wf s.mem = true → ∀ k, k < 80 → t.mem.read (0x050 + k) = fontBytes.getD k 0) ∧
    (∀ d : Fin 16, ∃ w : Word, t.fontLoc[d.val] = some w ∧ w.toNat = 0x050 + 5 * d.val) ∧
    t.pc = s.pc ∧ KeepsAllBut [.memory, .fontMap] s t)

/-- `RunCycles(n)` (70_reset_and_hazards.md R330): the state is that of n steps; it returns no fault exactly when no step of the run
faulted, and a fault it returns is the one the final, Faulted state records; a machine already faulted keeps its state and returns its
record. `RunFor(ms)` is `RunCycles` of its step count, whatever ms is (R333). What they return when nothing faults is the model's choice
(log 13). -/
def Obligations.RunCyclesIsIteratedStep : Prop :=
  (∀ (n : Nat) (s : State), (runCycles n s).2 = stepState^[n] s) ∧
  (∀ (n : Nat) (s : State), s.Inv → s.status ≠ .faulted → ((runCycles n s).1 = none ↔ SafeRun n s)) ∧
  (∀ (n : Nat) (s : State) (r : FaultRecord), (runCycles n s).1 = some r →
    (runCycles n s).2.status = .faulted ∧ (runCycles n s).2.fault = some r) ∧
  (∀ (n : Nat) (s : State), s.status = .faulted → runCycles (n + 1) s = (s.fault, s)) ∧
  (∀ (ms n : Nat) (s : State), perform s (.runCycles n) = (.ran (runCycles n s).1, (runCycles n s).2) ∧
    perform s (.runFor ms n) = perform s (.runCycles n))

/-- The read transactions return what the state holds and change nothing: OpcodeAt, PeekOpcode, DisassembleAt (30_encoding.md R91,
R95), ReadByte (20_memory.md R62), GetPixel and ReadFramebuffer (44_display.md R228), ReadState (60_exceptions.md R296); `Disassemble` is
`DisassemblyIsPure`. SetKeys writes the sixteen keys and SetPixel one cell, and nothing else (45_timers_keys.md R250). -/
def Obligations.ReadsAndInputs : Prop :=
  (∀ (s : State) (a : Nat), a + 1 < 4096 →
    perform s (.opcodeAt a) = (.opcode (joinBytes (s.mem.read a) (s.mem.read (a + 1))), s) ∧
    perform s (.disassembleAt a) = (.text (disassemble (joinBytes (s.mem.read a) (s.mem.read (a + 1)))), s)) ∧
  (∀ (s : State) (a : Nat), 4096 ≤ a + 1 →
    perform s (.opcodeAt a) = (.failed .addressOutOfBounds (max a 4096), s) ∧
    perform s (.disassembleAt a) = (.text none, s)) ∧
  (∀ s : State, perform s .peekOpcode = perform s (.opcodeAt s.pc.toNat)) ∧
  (∀ (s : State) (a : Nat), a < 4096 → perform s (.readByte a) = (.byte (s.mem.read a), s)) ∧
  (∀ (s : State) (x y : Nat), perform s (.getPixel x y) = (.byte (s.fb.read (x % 64 + 64 * (y % 32))), s)) ∧
  (∀ s : State, ∃ cells, perform s .readFramebuffer = (.bytes cells, s) ∧ cells.length = 2048 ∧
    ∀ idx, idx < 2048 → cells.getD idx 0 = s.fb.read idx) ∧
  (∀ s : State, ∃ w, perform s .readState = (.view w, s) ∧ w.v = s.v ∧ w.i = s.i ∧ w.pc = s.pc ∧ w.sp = s.sp ∧
    w.stack = s.stack ∧ w.dt = s.dt ∧ w.st = s.st ∧ w.status = s.status ∧ w.fault = s.fault) ∧
  (∀ (s : State) (k : Vector Bool 16), ∃ t, perform s (.setKeys k) = (.done, t) ∧ (∀ j : Fin 16, t.keys[j.val] = k[j.val]) ∧
    t.pc = s.pc ∧ KeepsAllBut [.keys] s t) ∧
  (∀ (s : State) (x y : Nat) (b : Byte), Framebuffer.wf s.fb = true →
    ∃ t, perform s (.setPixel x y b) = (.done, t) ∧
      (∀ x' y', perform t (.getPixel x' y') =
        (.byte (if x' % 64 = x % 64 ∧ y' % 32 = y % 32 then b else s.fb.read (x' % 64 + 64 * (y' % 32))), t)) ∧
      t.pc = s.pc ∧ KeepsAllBut [.display] s t)
end

