-- ==== Sys2Proof/Laws/Cells.lean ====
section
/-! SUPPORT. The laws of the sparse byte arrays behind Memory and the framebuffer: reads after writes, the canonical form, and
its uniqueness. -/
namespace Sys2Proof.Machine

variable {d : Nat → Byte} {bound : Nat}

/-- A write leaves every other address as it was. -/
theorem Cells.read_write_of_ne {m : List Host.Cell} {a a' : Nat} (v : Byte) (h : a' ≠ a) :
    Cells.read d (Cells.write d m a v) a' = Cells.read d m a' := by
  induction m with
  | nil =>
    simp only [Cells.write]
    split <;> simp [Cells.read, h]
  | cons c m ih =>
    obtain ⟨b, w⟩ := c
    simp only [Cells.write]
    repeat' split
    all_goals simp_all [Cells.read]

/-- Below the first listed address, a canonical list reads as unlisted. -/
theorem Cells.read_of_lt_lo {m : List Host.Cell} {lo a : Nat} (hw : Cells.wfFrom d bound lo m = true) (h : a < lo) :
    Cells.read d m a = d a := by
  induction m generalizing lo with
  | nil => rfl
  | cons c m ih =>
    obtain ⟨b, w⟩ := c
    simp only [Cells.wfFrom, Bool.and_eq_true, decide_eq_true_eq] at hw
    have hab : a ≠ b := by omega
    simp only [Cells.read, hab, if_false]
    exact ih hw.2 (by omega)

/-- A canonical list from `lo` is canonical from any lower start. -/
theorem Cells.wfFrom_mono {m : List Host.Cell} {lo lo' : Nat} (h : lo' ≤ lo) (hw : Cells.wfFrom d bound lo m = true) :
    Cells.wfFrom d bound lo' m = true := by
  cases m with
  | nil => rfl
  | cons c m =>
    simp only [Cells.wfFrom, Bool.and_eq_true, decide_eq_true_eq] at hw ⊢
    exact ⟨⟨⟨by omega, hw.1.1.2⟩, hw.1.2⟩, hw.2⟩

/-- A write is read back. -/
theorem Cells.read_write_self {m : List Host.Cell} {lo a : Nat} (v : Byte) (hw : Cells.wfFrom d bound lo m = true) :
    Cells.read d (Cells.write d m a v) a = v := by
  induction m generalizing lo with
  | nil =>
    simp only [Cells.write]
    split <;> simp_all [Cells.read]
  | cons c m ih =>
    obtain ⟨b, w⟩ := c
    simp only [Cells.wfFrom, Bool.and_eq_true, decide_eq_true_eq] at hw
    simp only [Cells.write]
    split
    · rename_i hlt
      split
      · rename_i hv
        have hab : a ≠ b := by omega
        simp only [Cells.read, hab, if_false]
        rw [Cells.read_of_lt_lo hw.2 (by omega), hv]
      · simp [Cells.read]
    · split
      · rename_i hab
        split
        · rename_i hv
          rw [Cells.read_of_lt_lo hw.2 (by omega), hv]
        · simp [Cells.read]
      · rename_i hab
        simp only [Cells.read, hab, if_false]
        exact ih hw.2

/-- A write inside the bound keeps the canonical form. -/
theorem Cells.wfFrom_write {m : List Host.Cell} {lo a : Nat} (v : Byte) (hlo : lo ≤ a) (ha : a < bound)
    (hw : Cells.wfFrom d bound lo m = true) : Cells.wfFrom d bound lo (Cells.write d m a v) = true := by
  induction m generalizing lo with
  | nil =>
    simp only [Cells.write]
    split <;> simp_all [Cells.wfFrom]
  | cons c m ih =>
    obtain ⟨b, w⟩ := c
    have hw' := hw
    simp only [Cells.wfFrom, Bool.and_eq_true, decide_eq_true_eq] at hw
    simp only [Cells.write]
    split
    · rename_i hlt
      split
      · exact hw'
      · rename_i hv
        simp only [Cells.wfFrom, Bool.and_eq_true, decide_eq_true_eq]
        exact ⟨⟨⟨hlo, ha⟩, hv⟩, ⟨⟨by omega, hw.1.1.2⟩, hw.1.2⟩, hw.2⟩
    · split
      · rename_i hab
        split
        · exact Cells.wfFrom_mono (by omega) hw.2
        · rename_i hv
          simp only [Cells.wfFrom, Bool.and_eq_true, decide_eq_true_eq]
          exact ⟨⟨⟨hlo, ha⟩, hv⟩, by rw [hab]; exact hw.2⟩
      · rename_i hlt hab
        simp only [Cells.wfFrom, Bool.and_eq_true, decide_eq_true_eq]
        exact ⟨⟨hw.1.1, hw.1.2⟩, ih (by omega) hw.2⟩

/-- Two canonical lists that read alike are the same list. -/
theorem Cells.eq_of_read_eq {m m' : List Host.Cell} {lo : Nat} (hw : Cells.wfFrom d bound lo m = true)
    (hw' : Cells.wfFrom d bound lo m' = true) (h : ∀ a, Cells.read d m a = Cells.read d m' a) : m = m' := by
  induction m generalizing m' lo with
  | nil =>
    cases m' with
    | nil => rfl
    | cons c' m' =>
      obtain ⟨b, w⟩ := c'
      simp only [Cells.wfFrom, Bool.and_eq_true, decide_eq_true_eq] at hw'
      exact absurd (h b).symm (by simpa [Cells.read] using hw'.1.2)
  | cons c m ih =>
    obtain ⟨b, w⟩ := c
    have hwc := hw
    simp only [Cells.wfFrom, Bool.and_eq_true, decide_eq_true_eq] at hw
    cases m' with
    | nil => exact absurd (h b) (by simpa [Cells.read] using hw.1.2)
    | cons c' m' =>
      obtain ⟨b', w'⟩ := c'
      have hwc' := hw'
      simp only [Cells.wfFrom, Bool.and_eq_true, decide_eq_true_eq] at hw'
      have hbb : b = b' := by
        rcases Nat.lt_trichotomy b b' with hlt | heq | hlt
        · have h1 := h b
          have h2 : Cells.read d ((b', w') :: m') b = d b :=
            Cells.read_of_lt_lo (lo := b') (bound := bound)
              (by simp only [Cells.wfFrom, Bool.and_eq_true, decide_eq_true_eq]; exact ⟨⟨⟨le_refl _, hw'.1.1.2⟩, hw'.1.2⟩, hw'.2⟩) hlt
          rw [h2] at h1
          exact absurd h1 (by simpa [Cells.read] using hw.1.2)
        · exact heq
        · have h1 := h b'
          have h2 : Cells.read d ((b, w) :: m) b' = d b' :=
            Cells.read_of_lt_lo (lo := b) (bound := bound)
              (by simp only [Cells.wfFrom, Bool.and_eq_true, decide_eq_true_eq]; exact ⟨⟨⟨le_refl _, hw.1.1.2⟩, hw.1.2⟩, hw.2⟩) hlt
          rw [h2] at h1
          exact absurd h1.symm (by simpa [Cells.read] using hw'.1.2)
      subst hbb
      have hww : w = w' := by simpa [Cells.read] using h b
      subst hww
      have : m = m' := by
        refine ih hw.2 hw'.2 fun a => ?_
        by_cases hab : a = b
        · subst hab
          rw [Cells.read_of_lt_lo hw.2 (by omega), Cells.read_of_lt_lo hw'.2 (by omega)]
        · simpa [Cells.read, hab] using h a
      rw [this]

end Sys2Proof.Machine
end

