-- ==== Sys2Proof/Laws/Decode.lean ====
section
/-! SUPPORT. The fields of encoded words, and the index fields of a word that meets a row's mask. -/
namespace Sys2Proof

/-! ### Fields of the three forms (R81) -/

theorem toNat_encNNN (t : Nibble) (nnn : Addr12) : (encNNN t nnn).toNat = t.toNat * 4096 + nnn.toNat := by
  have := nnn.isLt
  simp only [encNNN, BitVec.toNat_append]
  rw [← Nat.shiftLeft_add_eq_or_of_lt (by omega), Nat.shiftLeft_eq]

theorem toNat_encXKK (t : Nibble) (x : Reg) (kk : Byte) :
    (encXKK t x kk).toNat = t.toNat * 4096 + x.val * 256 + kk.toNat := by
  have h1 := kk.isLt
  have h2 := x.isLt
  simp only [encXKK, regBits, BitVec.toNat_append, BitVec.toNat_ofFin]
  rw [← Nat.shiftLeft_add_eq_or_of_lt (by omega), ← Nat.shiftLeft_add_eq_or_of_lt (by omega), Nat.shiftLeft_eq,
    Nat.shiftLeft_eq]
  omega

theorem toNat_encXYN (t : Nibble) (x y : Reg) (n : Nibble) :
    (encXYN t x y n).toNat = t.toNat * 4096 + x.val * 256 + y.val * 16 + n.toNat := by
  have h1 := n.isLt
  have h2 := x.isLt
  have h3 := y.isLt
  simp only [encXYN, regBits, BitVec.toNat_append, BitVec.toNat_ofFin]
  rw [← Nat.shiftLeft_add_eq_or_of_lt (by omega), ← Nat.shiftLeft_add_eq_or_of_lt (by omega),
    ← Nat.shiftLeft_add_eq_or_of_lt (by omega), Nat.shiftLeft_eq, Nat.shiftLeft_eq, Nat.shiftLeft_eq]
  omega

theorem toNat_opFamily (op : Word) : (opFamily op).toNat = op.toNat / 4096 := by
  have := op.isLt
  simp only [opFamily, BitVec.extractLsb'_toNat, Nat.shiftRight_eq_div_pow]
  omega

theorem toNat_opNNN (op : Word) : (opNNN op).toNat = op.toNat % 4096 := by
  simp [opNNN, BitVec.extractLsb'_toNat]

theorem val_opX (op : Word) : (opX op).val = op.toNat / 256 % 16 := by
  simp [opX, Nat.shiftRight_eq_div_pow]

theorem val_opY (op : Word) : (opY op).val = op.toNat / 16 % 16 := by
  simp [opY, Nat.shiftRight_eq_div_pow]

theorem toNat_opKK (op : Word) : (opKK op).toNat = op.toNat % 256 := by
  simp [opKK, BitVec.extractLsb'_toNat]

theorem toNat_opN (op : Word) : (opN op).toNat = op.toNat % 16 := by
  simp [opN, BitVec.extractLsb'_toNat]

@[simp] theorem opFamily_encNNN (t : Nibble) (nnn : Addr12) : opFamily (encNNN t nnn) = t := by
  apply BitVec.eq_of_toNat_eq
  have := nnn.isLt
  rw [toNat_opFamily, toNat_encNNN]
  omega

@[simp] theorem opNNN_encNNN (t : Nibble) (nnn : Addr12) : opNNN (encNNN t nnn) = nnn := by
  apply BitVec.eq_of_toNat_eq
  have := nnn.isLt
  rw [toNat_opNNN, toNat_encNNN]
  omega

@[simp] theorem opFamily_encXKK (t : Nibble) (x : Reg) (kk : Byte) : opFamily (encXKK t x kk) = t := by
  apply BitVec.eq_of_toNat_eq
  have := kk.isLt
  have := x.isLt
  rw [toNat_opFamily, toNat_encXKK]
  omega

@[simp] theorem opX_encXKK (t : Nibble) (x : Reg) (kk : Byte) : opX (encXKK t x kk) = x := by
  apply Fin.ext
  have := kk.isLt
  have := x.isLt
  rw [val_opX, toNat_encXKK]
  omega

@[simp] theorem opKK_encXKK (t : Nibble) (x : Reg) (kk : Byte) : opKK (encXKK t x kk) = kk := by
  apply BitVec.eq_of_toNat_eq
  have := kk.isLt
  rw [toNat_opKK, toNat_encXKK]
  omega

@[simp] theorem opFamily_encXYN (t : Nibble) (x y : Reg) (n : Nibble) : opFamily (encXYN t x y n) = t := by
  apply BitVec.eq_of_toNat_eq
  have := n.isLt
  have := x.isLt
  have := y.isLt
  rw [toNat_opFamily, toNat_encXYN]
  omega

@[simp] theorem opX_encXYN (t : Nibble) (x y : Reg) (n : Nibble) : opX (encXYN t x y n) = x := by
  apply Fin.ext
  have := n.isLt
  have := x.isLt
  have := y.isLt
  rw [val_opX, toNat_encXYN]
  omega

@[simp] theorem opY_encXYN (t : Nibble) (x y : Reg) (n : Nibble) : opY (encXYN t x y n) = y := by
  apply Fin.ext
  have := n.isLt
  have := y.isLt
  rw [val_opY, toNat_encXYN]
  omega

@[simp] theorem opN_encXYN (t : Nibble) (x y : Reg) (n : Nibble) : opN (encXYN t x y n) = n := by
  apply BitVec.eq_of_toNat_eq
  have := n.isLt
  rw [toNat_opN, toNat_encXYN]
  omega

/-! ### Bytes and words (R55) -/

theorem toNat_joinBytes (hi lo : Byte) : (joinBytes hi lo).toNat = hi.toNat * 256 + lo.toNat := by
  have := lo.isLt
  simp only [joinBytes, BitVec.toNat_append]
  rw [← Nat.shiftLeft_add_eq_or_of_lt (by omega), Nat.shiftLeft_eq]

theorem toNat_highByte (op : Word) : (highByte op).toNat = op.toNat / 256 := by
  have := op.isLt
  simp only [highByte, BitVec.extractLsb'_toNat, Nat.shiftRight_eq_div_pow]
  omega

theorem toNat_lowByte (op : Word) : (lowByte op).toNat = op.toNat % 256 := by
  simp [lowByte, BitVec.extractLsb'_toNat]

/-- The bytes of a word join to the word (R55). -/
@[simp] theorem joinBytes_high_low (op : Word) : joinBytes (highByte op) (lowByte op) = op := by
  apply BitVec.eq_of_toNat_eq
  rw [toNat_joinBytes, toNat_highByte, toNat_lowByte]
  omega

/-! ### The index fields of a word a row selects (R86) -/

/-- A row that fixes op[15:12] gives the top-level slot. -/
theorem opFamily_of_mask {op mask m : Word} (h : op &&& mask = m) (hm : mask.extractLsb' 12 4 = BitVec.allOnes 4) :
    opFamily op = m.extractLsb' 12 4 := by
  subst h
  rw [opFamily, BitVec.extractLsb'_and, hm, BitVec.and_allOnes]

/-- A row that fixes op[7:0] gives the index of families 0, E and F. -/
theorem opKK_of_mask {op mask m : Word} (h : op &&& mask = m) (hm : mask.extractLsb' 0 8 = BitVec.allOnes 8) :
    opKK op = m.extractLsb' 0 8 := by
  subst h
  rw [opKK, BitVec.extractLsb'_and, hm, BitVec.and_allOnes]

/-- A row that fixes op[3:0] gives the index of family 8. -/
theorem opN_of_mask {op mask m : Word} (h : op &&& mask = m) (hm : mask.extractLsb' 0 4 = BitVec.allOnes 4) :
    opN op = m.extractLsb' 0 4 := by
  subst h
  rw [opN, BitVec.extractLsb'_and, hm, BitVec.and_allOnes]

end Sys2Proof
end

