-- ==== Sys2Proof/Laws/Memory.lean ====
section
/-! SUPPORT. What each memory and framebuffer operation does, said once: reads after writes, the canonical form kept, and the
outcome of a block read, a block write and a word read. -/
namespace Sys2Proof.Machine

/-! ### Memory, one byte -/

@[simp] theorem Memory.read_nil (a : Nat) : Memory.read [] a = powerOnByte a := rfl

theorem Memory.read_write_of_ne (m : Memory) {a a' : Nat} (v : Byte) (h : a' ≠ a) :
    (m.write a v).read a' = m.read a' := Cells.read_write_of_ne v h

theorem Memory.read_write_self {m : Memory} (a : Nat) (v : Byte) (hw : Memory.wf m = true) :
    (m.write a v).read a = v := Cells.read_write_self v hw

theorem Memory.wf_write {m : Memory} {a : Nat} (v : Byte) (ha : a < 4096) (hw : Memory.wf m = true) :
    Memory.wf (m.write a v) = true := Cells.wfFrom_write v (Nat.zero_le a) ha hw

/-- Canonical memories that read alike are equal. -/
theorem Memory.eq_of_read_eq {m m' : Memory} (hw : Memory.wf m = true) (hw' : Memory.wf m' = true)
    (h : ∀ a, m.read a = m'.read a) : m = m' := Cells.eq_of_read_eq hw hw' h

/-- `MemRead` inside Memory (R53). -/
@[simp] theorem memRead_of_lt {m : Memory} {a : Nat} (h : a < 4096) : memRead m a = .ok (m.read a) := by
  simp [memRead, h]

/-- `MemRead` outside Memory (R53). -/
@[simp] theorem memRead_of_ge {m : Memory} {a : Nat} (h : 4096 ≤ a) : memRead m a = .error a := by
  simp [memRead, Nat.not_lt.mpr h]

/-- `MemWrite` inside Memory (R53). -/
@[simp] theorem memWrite_of_lt {m : Memory} {a : Nat} {v : Byte} (h : a < 4096) : memWrite m a v = .ok (m.write a v) := by
  simp [memWrite, h]

/-- `MemWrite` outside Memory (R53). -/
@[simp] theorem memWrite_of_ge {m : Memory} {a : Nat} {v : Byte} (h : 4096 ≤ a) : memWrite m a v = .error a := by
  simp [memWrite, Nat.not_lt.mpr h]

/-! ### Memory, a block -/

/-- The bytes `mem[a], ..., mem[a+n-1]`. -/
def Memory.slice (m : Memory) (a n : Nat) : List Byte := (List.range n).map fun k => m.read (a + k)

@[simp] theorem Memory.length_slice (m : Memory) (a n : Nat) : (m.slice a n).length = n := by
  simp [Memory.slice]

/-- A block read inside Memory gives the bytes (R190). -/
theorem readBlock_of_le {m : Memory} {a n : Nat} (h : a + n ≤ 4096) : readBlock m a n = .ok (m.slice a n) := by
  induction n generalizing a with
  | zero => rfl
  | succ n ih =>
    simp only [readBlock, memRead_of_lt (show a < 4096 by omega), ih (show a + 1 + n ≤ 4096 by omega), Memory.slice,
      List.range_succ_eq_map, List.map_cons, List.map_map]
    congr 2
    refine List.map_congr_left fun k _ => ?_
    simp only [Function.comp_apply]
    congr 1
    omega

/-- A block of no bytes is always readable. -/
@[simp] theorem readBlock_zero (m : Memory) (a : Nat) : readBlock m a 0 = .ok [] := rfl

/-- A block read that leaves Memory gives its first out-of-range address (R190). -/
theorem readBlock_of_gt {m : Memory} {a n : Nat} (hn : 0 < n) (h : 4096 < a + n) :
    readBlock m a n = .error (max a 4096) := by
  induction n generalizing a with
  | zero => omega
  | succ n ih =>
    by_cases ha : a < 4096
    · simp only [readBlock, memRead_of_lt ha, ih (show 0 < n by omega) (show 4096 < a + 1 + n by omega)]
      congr 1
      omega
    · simp only [readBlock, memRead_of_ge (Nat.not_lt.mp ha)]
      congr 1
      omega

/-- Everything a block write inside Memory does: it succeeds, keeps the canonical form, changes no byte outside the block, and in
a canonical memory the block reads back (R190). -/
theorem writeBlock_of_le (bs : List Byte) {m : Memory} {a : Nat} (h : a + bs.length ≤ 4096) :
    ∃ m', writeBlock m a bs = .ok m' ∧ (Memory.wf m = true → Memory.wf m' = true) ∧
      (∀ b, (b < a ∨ a + bs.length ≤ b) → m'.read b = m.read b) ∧
      (Memory.wf m = true → ∀ k, k < bs.length → m'.read (a + k) = bs.getD k 0) := by
  induction bs generalizing m a with
  | nil => exact ⟨m, rfl, id, fun _ _ => rfl, fun _ k hk => absurd hk (by simp)⟩
  | cons b bs ih =>
    simp only [List.length_cons] at h
    have ha : a < 4096 := by omega
    obtain ⟨m', hm', hwf, hout, hin⟩ := ih (m := m.write a b) (a := a + 1) (by omega)
    refine ⟨m', by simp [writeBlock, memWrite_of_lt ha, hm'], fun hw => hwf (Memory.wf_write b ha hw), ?_, ?_⟩
    · intro c hc
      simp only [List.length_cons] at hc
      rw [hout c (by omega), Memory.read_write_of_ne m b (by omega)]
    · intro hw k hk
      cases k with
      | zero =>
        rw [Nat.add_zero, hout a (by omega), Memory.read_write_self a b hw]
        simp
      | succ k =>
        simp only [List.length_cons] at hk
        have := hin (Memory.wf_write b ha hw) k (by omega)
        rw [show a + (k + 1) = a + 1 + k by omega, this]
        simp

/-- A block write of no bytes changes nothing. -/
@[simp] theorem writeBlock_nil (m : Memory) (a : Nat) : writeBlock m a [] = .ok m := rfl

/-- A block write that leaves Memory gives its first out-of-range address (R190). -/
theorem writeBlock_of_gt {bs : List Byte} {m : Memory} {a : Nat} (hn : bs ≠ []) (h : 4096 < a + bs.length) :
    writeBlock m a bs = .error (max a 4096) := by
  induction bs generalizing m a with
  | nil => exact absurd rfl hn
  | cons b bs ih =>
    simp only [List.length_cons] at h
    by_cases ha : a < 4096
    · have hne : bs ≠ [] := by
        rintro rfl
        simp at h
        omega
      simp only [writeBlock, memWrite_of_lt ha, ih hne (show 4096 < a + 1 + bs.length by omega)]
      congr 1
      omega
    · simp only [writeBlock, memWrite_of_ge (Nat.not_lt.mp ha)]
      congr 1
      omega

/-! ### Memory, a word -/

/-- The word at `a`, high byte at the lower address (R55, R91). -/
theorem readWord_of_lt {m : Memory} {a : Nat} (h : a + 1 < 4096) :
    readWord m a = .ok (joinBytes (m.read a) (m.read (a + 1))) := by
  simp [readWord, memRead_of_lt (show a < 4096 by omega), memRead_of_lt h]

/-- Reading a word that leaves Memory gives the first out-of-range address (R92). -/
theorem readWord_of_ge {m : Memory} {a : Nat} (h : 4096 ≤ a + 1) : readWord m a = .error (max a 4096) := by
  by_cases ha : a < 4096
  · have : a = 4095 := by omega
    subst this
    simp [readWord]
  · simp only [readWord, memRead_of_ge (Nat.not_lt.mp ha)]
    congr 1
    omega

/-- A word written into a canonical memory is read back. -/
theorem readWord_writeWord {m : Memory} {a : Nat} (op : Word) (h : a + 1 < 4096) (hw : Memory.wf m = true) :
    ∃ m', writeWord m a op = .ok m' ∧ Memory.wf m' = true ∧ readWord m' a = .ok op ∧
      ∀ b, b ≠ a → b ≠ a + 1 → m'.read b = m.read b := by
  obtain ⟨m', hm', hwf, hout, hin⟩ := writeBlock_of_le [highByte op, lowByte op] (m := m) (a := a) (by simp; omega)
  refine ⟨m', hm', hwf hw, ?_, fun b h0 h1 => hout b (by simp; omega)⟩
  have h0 := hin hw 0 (by simp)
  have h1 := hin hw 1 (by simp)
  rw [readWord_of_lt h]
  simp only [Nat.add_zero] at h0
  rw [h0, h1]
  simp

/-! ### The framebuffer -/

@[simp] theorem Framebuffer.read_nil (idx : Nat) : Framebuffer.read [] idx = 0x00 := rfl

/-- A cleared framebuffer reads 0x00 in every cell (R222). -/
@[simp] theorem Framebuffer.read_cleared (idx : Nat) : Framebuffer.cleared.read idx = 0x00 := rfl

@[simp] theorem Framebuffer.wf_cleared : Framebuffer.wf Framebuffer.cleared = true := rfl

theorem Framebuffer.read_write_of_ne (f : Framebuffer) {a a' : Nat} (v : Byte) (h : a' ≠ a) :
    (f.write a v).read a' = f.read a' := Cells.read_write_of_ne v h

theorem Framebuffer.read_write_self {f : Framebuffer} (a : Nat) (v : Byte) (hw : Framebuffer.wf f = true) :
    (f.write a v).read a = v := Cells.read_write_self v hw

theorem Framebuffer.wf_write {f : Framebuffer} {a : Nat} (v : Byte) (ha : a < 2048) (hw : Framebuffer.wf f = true) :
    Framebuffer.wf (f.write a v) = true := Cells.wfFrom_write v (Nat.zero_le a) ha hw

/-- Canonical framebuffers that read alike are equal. -/
theorem Framebuffer.eq_of_read_eq {f f' : Framebuffer} (hw : Framebuffer.wf f = true) (hw' : Framebuffer.wf f' = true)
    (h : ∀ a, f.read a = f'.read a) : f = f' := Cells.eq_of_read_eq hw hw' h

/-- Every coordinate pair names a cell inside the framebuffer (R220). -/
theorem cellIndex_lt (x y : Nat) : cellIndex x y < 2048 := by
  simp only [cellIndex]
  have := Nat.mod_lt x (show 0 < 64 by decide)
  have := Nat.mod_lt y (show 0 < 32 by decide)
  simp only [Config.screenW, Config.screenH]
  omega

end Sys2Proof.Machine
end

