-- ==== Sys2Proof/Laws/State.lean ====
section
/-! SUPPORT. What each update of State does to each field, and to a register read: one lemma per field per update. -/
namespace Sys2Proof.Machine

variable (s : State)

/-! ### Register reads -/

/-- A write to `V[x]` is read back from `V[x]`, and no other register changes. -/
@[simp] theorem State.getV_setV (x r : Reg) (b : Byte) : (s.setV x b).getV r = if r = x then b else s.getV r := by
  simp only [State.getV, State.setV, Vector.getElem_set]
  by_cases h : r = x
  · simp [h]
  · have : x.val ≠ r.val := fun e => h (Fin.ext e.symm)
    simp [h, this]

/-- The flag is written last, so VF ends holding it (R150). -/
@[simp] theorem State.getV_setVFlag (x r : Reg) (b f : Byte) :
    (s.setVFlag x b f).getV r = if r = regF then f else if r = x then b else s.getV r := by
  simp [State.setVFlag]

/-- A block load writes the registers below the length of its list. -/
@[simp] theorem State.getV_setVBlock (bs : List Byte) (r : Reg) :
    (s.setVBlock bs).getV r = bs.getD r.val (s.getV r) := by
  simp [State.getV, State.setVBlock]

@[simp] theorem State.getV_setI (w : Word) (x : Reg) : (s.setI w).getV x = s.getV x := rfl
@[simp] theorem State.getV_setDT (b : Byte) (x : Reg) : (s.setDT b).getV x = s.getV x := rfl
@[simp] theorem State.getV_setST (b : Byte) (x : Reg) : (s.setST b).getV x = s.getV x := rfl
@[simp] theorem State.getV_setMem (m : Memory) (x : Reg) : (s.setMem m).getV x = s.getV x := rfl
@[simp] theorem State.getV_setFb (f : Framebuffer) (x : Reg) : (s.setFb f).getV x = s.getV x := rfl
@[simp] theorem State.getV_jump (w : Word) (x : Reg) : (s.jump w).getV x = s.getV x := rfl
@[simp] theorem State.getV_advance (x : Reg) : (s.advance).getV x = s.getV x := rfl
@[simp] theorem State.getV_skip (x : Reg) : (s.skip).getV x = s.getV x := rfl
@[simp] theorem State.getV_rollback (x : Reg) : (s.rollback).getV x = s.getV x := rfl
@[simp] theorem State.getV_halt (x : Reg) : (s.halt).getV x = s.getV x := rfl
@[simp] theorem State.getV_drawByte (x : Reg) : (s.drawByte.2).getV x = s.getV x := rfl
@[simp] theorem State.getV_raise (k : FaultKind) (n : Nat) (x : Reg) : (s.raise k n).getV x = s.getV x := rfl

/-! ### Fields -/

@[simp] theorem State.setV_v (r : Reg) (b : Byte) : (s.setV r b).v = s.v.set r.val b := rfl
@[simp] theorem State.setV_i (r : Reg) (b : Byte) : (s.setV r b).i = s.i := rfl
@[simp] theorem State.setV_pc (r : Reg) (b : Byte) : (s.setV r b).pc = s.pc := rfl
@[simp] theorem State.setV_sp (r : Reg) (b : Byte) : (s.setV r b).sp = s.sp := rfl
@[simp] theorem State.setV_stack (r : Reg) (b : Byte) : (s.setV r b).stack = s.stack := rfl
@[simp] theorem State.setV_dt (r : Reg) (b : Byte) : (s.setV r b).dt = s.dt := rfl
@[simp] theorem State.setV_st (r : Reg) (b : Byte) : (s.setV r b).st = s.st := rfl
@[simp] theorem State.setV_keys (r : Reg) (b : Byte) : (s.setV r b).keys = s.keys := rfl
@[simp] theorem State.setV_mem (r : Reg) (b : Byte) : (s.setV r b).mem = s.mem := rfl
@[simp] theorem State.setV_fb (r : Reg) (b : Byte) : (s.setV r b).fb = s.fb := rfl
@[simp] theorem State.setV_fontLoc (r : Reg) (b : Byte) : (s.setV r b).fontLoc = s.fontLoc := rfl
@[simp] theorem State.setV_status (r : Reg) (b : Byte) : (s.setV r b).status = s.status := rfl
@[simp] theorem State.setV_fault (r : Reg) (b : Byte) : (s.setV r b).fault = s.fault := rfl
@[simp] theorem State.setV_draws (r : Reg) (b : Byte) : (s.setV r b).draws = s.draws := rfl

@[simp] theorem State.setVFlag_i (x : Reg) (b f : Byte) : (s.setVFlag x b f).i = s.i := rfl
@[simp] theorem State.setVFlag_pc (x : Reg) (b f : Byte) : (s.setVFlag x b f).pc = s.pc := rfl
@[simp] theorem State.setVFlag_sp (x : Reg) (b f : Byte) : (s.setVFlag x b f).sp = s.sp := rfl
@[simp] theorem State.setVFlag_stack (x : Reg) (b f : Byte) : (s.setVFlag x b f).stack = s.stack := rfl
@[simp] theorem State.setVFlag_dt (x : Reg) (b f : Byte) : (s.setVFlag x b f).dt = s.dt := rfl
@[simp] theorem State.setVFlag_st (x : Reg) (b f : Byte) : (s.setVFlag x b f).st = s.st := rfl
@[simp] theorem State.setVFlag_keys (x : Reg) (b f : Byte) : (s.setVFlag x b f).keys = s.keys := rfl
@[simp] theorem State.setVFlag_mem (x : Reg) (b f : Byte) : (s.setVFlag x b f).mem = s.mem := rfl
@[simp] theorem State.setVFlag_fb (x : Reg) (b f : Byte) : (s.setVFlag x b f).fb = s.fb := rfl
@[simp] theorem State.setVFlag_fontLoc (x : Reg) (b f : Byte) : (s.setVFlag x b f).fontLoc = s.fontLoc := rfl
@[simp] theorem State.setVFlag_status (x : Reg) (b f : Byte) : (s.setVFlag x b f).status = s.status := rfl
@[simp] theorem State.setVFlag_fault (x : Reg) (b f : Byte) : (s.setVFlag x b f).fault = s.fault := rfl
@[simp] theorem State.setVFlag_draws (x : Reg) (b f : Byte) : (s.setVFlag x b f).draws = s.draws := rfl

@[simp] theorem State.setVBlock_i (bs : List Byte) : (s.setVBlock bs).i = s.i := rfl
@[simp] theorem State.setVBlock_pc (bs : List Byte) : (s.setVBlock bs).pc = s.pc := rfl
@[simp] theorem State.setVBlock_sp (bs : List Byte) : (s.setVBlock bs).sp = s.sp := rfl
@[simp] theorem State.setVBlock_stack (bs : List Byte) : (s.setVBlock bs).stack = s.stack := rfl
@[simp] theorem State.setVBlock_dt (bs : List Byte) : (s.setVBlock bs).dt = s.dt := rfl
@[simp] theorem State.setVBlock_st (bs : List Byte) : (s.setVBlock bs).st = s.st := rfl
@[simp] theorem State.setVBlock_keys (bs : List Byte) : (s.setVBlock bs).keys = s.keys := rfl
@[simp] theorem State.setVBlock_mem (bs : List Byte) : (s.setVBlock bs).mem = s.mem := rfl
@[simp] theorem State.setVBlock_fb (bs : List Byte) : (s.setVBlock bs).fb = s.fb := rfl
@[simp] theorem State.setVBlock_fontLoc (bs : List Byte) : (s.setVBlock bs).fontLoc = s.fontLoc := rfl
@[simp] theorem State.setVBlock_status (bs : List Byte) : (s.setVBlock bs).status = s.status := rfl
@[simp] theorem State.setVBlock_fault (bs : List Byte) : (s.setVBlock bs).fault = s.fault := rfl
@[simp] theorem State.setVBlock_draws (bs : List Byte) : (s.setVBlock bs).draws = s.draws := rfl

@[simp] theorem State.setI_v (w : Word) : (s.setI w).v = s.v := rfl
@[simp] theorem State.setI_i (w : Word) : (s.setI w).i = w := rfl
@[simp] theorem State.setI_pc (w : Word) : (s.setI w).pc = s.pc := rfl
@[simp] theorem State.setI_sp (w : Word) : (s.setI w).sp = s.sp := rfl
@[simp] theorem State.setI_stack (w : Word) : (s.setI w).stack = s.stack := rfl
@[simp] theorem State.setI_dt (w : Word) : (s.setI w).dt = s.dt := rfl
@[simp] theorem State.setI_st (w : Word) : (s.setI w).st = s.st := rfl
@[simp] theorem State.setI_keys (w : Word) : (s.setI w).keys = s.keys := rfl
@[simp] theorem State.setI_mem (w : Word) : (s.setI w).mem = s.mem := rfl
@[simp] theorem State.setI_fb (w : Word) : (s.setI w).fb = s.fb := rfl
@[simp] theorem State.setI_fontLoc (w : Word) : (s.setI w).fontLoc = s.fontLoc := rfl
@[simp] theorem State.setI_status (w : Word) : (s.setI w).status = s.status := rfl
@[simp] theorem State.setI_fault (w : Word) : (s.setI w).fault = s.fault := rfl
@[simp] theorem State.setI_draws (w : Word) : (s.setI w).draws = s.draws := rfl

@[simp] theorem State.setDT_v (b : Byte) : (s.setDT b).v = s.v := rfl
@[simp] theorem State.setDT_i (b : Byte) : (s.setDT b).i = s.i := rfl
@[simp] theorem State.setDT_pc (b : Byte) : (s.setDT b).pc = s.pc := rfl
@[simp] theorem State.setDT_sp (b : Byte) : (s.setDT b).sp = s.sp := rfl
@[simp] theorem State.setDT_stack (b : Byte) : (s.setDT b).stack = s.stack := rfl
@[simp] theorem State.setDT_dt (b : Byte) : (s.setDT b).dt = b := rfl
@[simp] theorem State.setDT_st (b : Byte) : (s.setDT b).st = s.st := rfl
@[simp] theorem State.setDT_keys (b : Byte) : (s.setDT b).keys = s.keys := rfl
@[simp] theorem State.setDT_mem (b : Byte) : (s.setDT b).mem = s.mem := rfl
@[simp] theorem State.setDT_fb (b : Byte) : (s.setDT b).fb = s.fb := rfl
@[simp] theorem State.setDT_fontLoc (b : Byte) : (s.setDT b).fontLoc = s.fontLoc := rfl
@[simp] theorem State.setDT_status (b : Byte) : (s.setDT b).status = s.status := rfl
@[simp] theorem State.setDT_fault (b : Byte) : (s.setDT b).fault = s.fault := rfl
@[simp] theorem State.setDT_draws (b : Byte) : (s.setDT b).draws = s.draws := rfl

@[simp] theorem State.setST_v (b : Byte) : (s.setST b).v = s.v := rfl
@[simp] theorem State.setST_i (b : Byte) : (s.setST b).i = s.i := rfl
@[simp] theorem State.setST_pc (b : Byte) : (s.setST b).pc = s.pc := rfl
@[simp] theorem State.setST_sp (b : Byte) : (s.setST b).sp = s.sp := rfl
@[simp] theorem State.setST_stack (b : Byte) : (s.setST b).stack = s.stack := rfl
@[simp] theorem State.setST_dt (b : Byte) : (s.setST b).dt = s.dt := rfl
@[simp] theorem State.setST_st (b : Byte) : (s.setST b).st = b := rfl
@[simp] theorem State.setST_keys (b : Byte) : (s.setST b).keys = s.keys := rfl
@[simp] theorem State.setST_mem (b : Byte) : (s.setST b).mem = s.mem := rfl
@[simp] theorem State.setST_fb (b : Byte) : (s.setST b).fb = s.fb := rfl
@[simp] theorem State.setST_fontLoc (b : Byte) : (s.setST b).fontLoc = s.fontLoc := rfl
@[simp] theorem State.setST_status (b : Byte) : (s.setST b).status = s.status := rfl
@[simp] theorem State.setST_fault (b : Byte) : (s.setST b).fault = s.fault := rfl
@[simp] theorem State.setST_draws (b : Byte) : (s.setST b).draws = s.draws := rfl

@[simp] theorem State.setMem_v (m : Memory) : (s.setMem m).v = s.v := rfl
@[simp] theorem State.setMem_i (m : Memory) : (s.setMem m).i = s.i := rfl
@[simp] theorem State.setMem_pc (m : Memory) : (s.setMem m).pc = s.pc := rfl
@[simp] theorem State.setMem_sp (m : Memory) : (s.setMem m).sp = s.sp := rfl
@[simp] theorem State.setMem_stack (m : Memory) : (s.setMem m).stack = s.stack := rfl
@[simp] theorem State.setMem_dt (m : Memory) : (s.setMem m).dt = s.dt := rfl
@[simp] theorem State.setMem_st (m : Memory) : (s.setMem m).st = s.st := rfl
@[simp] theorem State.setMem_keys (m : Memory) : (s.setMem m).keys = s.keys := rfl
@[simp] theorem State.setMem_mem (m : Memory) : (s.setMem m).mem = m := rfl
@[simp] theorem State.setMem_fb (m : Memory) : (s.setMem m).fb = s.fb := rfl
@[simp] theorem State.setMem_fontLoc (m : Memory) : (s.setMem m).fontLoc = s.fontLoc := rfl
@[simp] theorem State.setMem_status (m : Memory) : (s.setMem m).status = s.status := rfl
@[simp] theorem State.setMem_fault (m : Memory) : (s.setMem m).fault = s.fault := rfl
@[simp] theorem State.setMem_draws (m : Memory) : (s.setMem m).draws = s.draws := rfl

@[simp] theorem State.setFb_v (f : Framebuffer) : (s.setFb f).v = s.v := rfl
@[simp] theorem State.setFb_i (f : Framebuffer) : (s.setFb f).i = s.i := rfl
@[simp] theorem State.setFb_pc (f : Framebuffer) : (s.setFb f).pc = s.pc := rfl
@[simp] theorem State.setFb_sp (f : Framebuffer) : (s.setFb f).sp = s.sp := rfl
@[simp] theorem State.setFb_stack (f : Framebuffer) : (s.setFb f).stack = s.stack := rfl
@[simp] theorem State.setFb_dt (f : Framebuffer) : (s.setFb f).dt = s.dt := rfl
@[simp] theorem State.setFb_st (f : Framebuffer) : (s.setFb f).st = s.st := rfl
@[simp] theorem State.setFb_keys (f : Framebuffer) : (s.setFb f).keys = s.keys := rfl
@[simp] theorem State.setFb_mem (f : Framebuffer) : (s.setFb f).mem = s.mem := rfl
@[simp] theorem State.setFb_fb (f : Framebuffer) : (s.setFb f).fb = f := rfl
@[simp] theorem State.setFb_fontLoc (f : Framebuffer) : (s.setFb f).fontLoc = s.fontLoc := rfl
@[simp] theorem State.setFb_status (f : Framebuffer) : (s.setFb f).status = s.status := rfl
@[simp] theorem State.setFb_fault (f : Framebuffer) : (s.setFb f).fault = s.fault := rfl
@[simp] theorem State.setFb_draws (f : Framebuffer) : (s.setFb f).draws = s.draws := rfl

@[simp] theorem State.jump_v (w : Word) : (s.jump w).v = s.v := rfl
@[simp] theorem State.jump_i (w : Word) : (s.jump w).i = s.i := rfl
@[simp] theorem State.jump_pc (w : Word) : (s.jump w).pc = w := rfl
@[simp] theorem State.jump_sp (w : Word) : (s.jump w).sp = s.sp := rfl
@[simp] theorem State.jump_stack (w : Word) : (s.jump w).stack = s.stack := rfl
@[simp] theorem State.jump_dt (w : Word) : (s.jump w).dt = s.dt := rfl
@[simp] theorem State.jump_st (w : Word) : (s.jump w).st = s.st := rfl
@[simp] theorem State.jump_keys (w : Word) : (s.jump w).keys = s.keys := rfl
@[simp] theorem State.jump_mem (w : Word) : (s.jump w).mem = s.mem := rfl
@[simp] theorem State.jump_fb (w : Word) : (s.jump w).fb = s.fb := rfl
@[simp] theorem State.jump_fontLoc (w : Word) : (s.jump w).fontLoc = s.fontLoc := rfl
@[simp] theorem State.jump_status (w : Word) : (s.jump w).status = s.status := rfl
@[simp] theorem State.jump_fault (w : Word) : (s.jump w).fault = s.fault := rfl
@[simp] theorem State.jump_draws (w : Word) : (s.jump w).draws = s.draws := rfl

@[simp] theorem State.advance_v : (s.advance).v = s.v := rfl
@[simp] theorem State.advance_i : (s.advance).i = s.i := rfl
@[simp] theorem State.advance_pc : (s.advance).pc = s.pc + 2#16 := rfl
@[simp] theorem State.advance_sp : (s.advance).sp = s.sp := rfl
@[simp] theorem State.advance_stack : (s.advance).stack = s.stack := rfl
@[simp] theorem State.advance_dt : (s.advance).dt = s.dt := rfl
@[simp] theorem State.advance_st : (s.advance).st = s.st := rfl
@[simp] theorem State.advance_keys : (s.advance).keys = s.keys := rfl
@[simp] theorem State.advance_mem : (s.advance).mem = s.mem := rfl
@[simp] theorem State.advance_fb : (s.advance).fb = s.fb := rfl
@[simp] theorem State.advance_fontLoc : (s.advance).fontLoc = s.fontLoc := rfl
@[simp] theorem State.advance_status : (s.advance).status = s.status := rfl
@[simp] theorem State.advance_fault : (s.advance).fault = s.fault := rfl
@[simp] theorem State.advance_draws : (s.advance).draws = s.draws := rfl

@[simp] theorem State.skip_v : (s.skip).v = s.v := rfl
@[simp] theorem State.skip_i : (s.skip).i = s.i := rfl
@[simp] theorem State.skip_pc : (s.skip).pc = s.pc + 2#16 := rfl
@[simp] theorem State.skip_sp : (s.skip).sp = s.sp := rfl
@[simp] theorem State.skip_stack : (s.skip).stack = s.stack := rfl
@[simp] theorem State.skip_dt : (s.skip).dt = s.dt := rfl
@[simp] theorem State.skip_st : (s.skip).st = s.st := rfl
@[simp] theorem State.skip_keys : (s.skip).keys = s.keys := rfl
@[simp] theorem State.skip_mem : (s.skip).mem = s.mem := rfl
@[simp] theorem State.skip_fb : (s.skip).fb = s.fb := rfl
@[simp] theorem State.skip_fontLoc : (s.skip).fontLoc = s.fontLoc := rfl
@[simp] theorem State.skip_status : (s.skip).status = s.status := rfl
@[simp] theorem State.skip_fault : (s.skip).fault = s.fault := rfl
@[simp] theorem State.skip_draws : (s.skip).draws = s.draws := rfl

@[simp] theorem State.rollback_v : (s.rollback).v = s.v := rfl
@[simp] theorem State.rollback_i : (s.rollback).i = s.i := rfl
@[simp] theorem State.rollback_pc : (s.rollback).pc = s.pc - 2#16 := rfl
@[simp] theorem State.rollback_sp : (s.rollback).sp = s.sp := rfl
@[simp] theorem State.rollback_stack : (s.rollback).stack = s.stack := rfl
@[simp] theorem State.rollback_dt : (s.rollback).dt = s.dt := rfl
@[simp] theorem State.rollback_st : (s.rollback).st = s.st := rfl
@[simp] theorem State.rollback_keys : (s.rollback).keys = s.keys := rfl
@[simp] theorem State.rollback_mem : (s.rollback).mem = s.mem := rfl
@[simp] theorem State.rollback_fb : (s.rollback).fb = s.fb := rfl
@[simp] theorem State.rollback_fontLoc : (s.rollback).fontLoc = s.fontLoc := rfl
@[simp] theorem State.rollback_status : (s.rollback).status = s.status := rfl
@[simp] theorem State.rollback_fault : (s.rollback).fault = s.fault := rfl
@[simp] theorem State.rollback_draws : (s.rollback).draws = s.draws := rfl

@[simp] theorem State.halt_v : (s.halt).v = s.v := rfl
@[simp] theorem State.halt_i : (s.halt).i = s.i := rfl
@[simp] theorem State.halt_pc : (s.halt).pc = s.pc := rfl
@[simp] theorem State.halt_sp : (s.halt).sp = s.sp := rfl
@[simp] theorem State.halt_stack : (s.halt).stack = s.stack := rfl
@[simp] theorem State.halt_dt : (s.halt).dt = s.dt := rfl
@[simp] theorem State.halt_st : (s.halt).st = s.st := rfl
@[simp] theorem State.halt_keys : (s.halt).keys = s.keys := rfl
@[simp] theorem State.halt_mem : (s.halt).mem = s.mem := rfl
@[simp] theorem State.halt_fb : (s.halt).fb = s.fb := rfl
@[simp] theorem State.halt_fontLoc : (s.halt).fontLoc = s.fontLoc := rfl
@[simp] theorem State.halt_status : (s.halt).status = .exited := rfl
@[simp] theorem State.halt_fault : (s.halt).fault = s.fault := rfl
@[simp] theorem State.halt_draws : (s.halt).draws = s.draws := rfl

@[simp] theorem State.drawByte_v : (s.drawByte.2).v = s.v := rfl
@[simp] theorem State.drawByte_i : (s.drawByte.2).i = s.i := rfl
@[simp] theorem State.drawByte_pc : (s.drawByte.2).pc = s.pc := rfl
@[simp] theorem State.drawByte_sp : (s.drawByte.2).sp = s.sp := rfl
@[simp] theorem State.drawByte_stack : (s.drawByte.2).stack = s.stack := rfl
@[simp] theorem State.drawByte_dt : (s.drawByte.2).dt = s.dt := rfl
@[simp] theorem State.drawByte_st : (s.drawByte.2).st = s.st := rfl
@[simp] theorem State.drawByte_keys : (s.drawByte.2).keys = s.keys := rfl
@[simp] theorem State.drawByte_mem : (s.drawByte.2).mem = s.mem := rfl
@[simp] theorem State.drawByte_fb : (s.drawByte.2).fb = s.fb := rfl
@[simp] theorem State.drawByte_fontLoc : (s.drawByte.2).fontLoc = s.fontLoc := rfl
@[simp] theorem State.drawByte_status : (s.drawByte.2).status = s.status := rfl
@[simp] theorem State.drawByte_fault : (s.drawByte.2).fault = s.fault := rfl
@[simp] theorem State.drawByte_draws : (s.drawByte.2).draws = s.draws + 1 := rfl

@[simp] theorem State.raise_v (k : FaultKind) (n : Nat) : (s.raise k n).v = s.v := rfl
@[simp] theorem State.raise_i (k : FaultKind) (n : Nat) : (s.raise k n).i = s.i := rfl
@[simp] theorem State.raise_pc (k : FaultKind) (n : Nat) : (s.raise k n).pc = s.pc := rfl
@[simp] theorem State.raise_sp (k : FaultKind) (n : Nat) : (s.raise k n).sp = s.sp := rfl
@[simp] theorem State.raise_stack (k : FaultKind) (n : Nat) : (s.raise k n).stack = s.stack := rfl
@[simp] theorem State.raise_dt (k : FaultKind) (n : Nat) : (s.raise k n).dt = s.dt := rfl
@[simp] theorem State.raise_st (k : FaultKind) (n : Nat) : (s.raise k n).st = s.st := rfl
@[simp] theorem State.raise_keys (k : FaultKind) (n : Nat) : (s.raise k n).keys = s.keys := rfl
@[simp] theorem State.raise_mem (k : FaultKind) (n : Nat) : (s.raise k n).mem = s.mem := rfl
@[simp] theorem State.raise_fb (k : FaultKind) (n : Nat) : (s.raise k n).fb = s.fb := rfl
@[simp] theorem State.raise_fontLoc (k : FaultKind) (n : Nat) : (s.raise k n).fontLoc = s.fontLoc := rfl
@[simp] theorem State.raise_status (k : FaultKind) (n : Nat) : (s.raise k n).status = .faulted := rfl
@[simp] theorem State.raise_fault (k : FaultKind) (n : Nat) : (s.raise k n).fault = some { kind := k, addr := s.pc, opcode := s.fetchedOpcode, info := n } := rfl
@[simp] theorem State.raise_draws (k : FaultKind) (n : Nat) : (s.raise k n).draws = s.draws := rfl

@[simp] theorem State.cpuReset_v : (s.cpuReset).v = Vector.replicate 16 0x00 := rfl
@[simp] theorem State.cpuReset_i : (s.cpuReset).i = 0x0000 := rfl
@[simp] theorem State.cpuReset_pc : (s.cpuReset).pc = 0x200 := rfl
@[simp] theorem State.cpuReset_sp : (s.cpuReset).sp = 0 := rfl
@[simp] theorem State.cpuReset_stack : (s.cpuReset).stack = Vector.replicate 16 0x0000 := rfl
@[simp] theorem State.cpuReset_dt : (s.cpuReset).dt = 0x00 := rfl
@[simp] theorem State.cpuReset_st : (s.cpuReset).st = 0x00 := rfl
@[simp] theorem State.cpuReset_keys : (s.cpuReset).keys = s.keys := rfl
@[simp] theorem State.cpuReset_mem : (s.cpuReset).mem = s.mem := rfl
@[simp] theorem State.cpuReset_fb : (s.cpuReset).fb = s.fb := rfl
@[simp] theorem State.cpuReset_fontLoc : (s.cpuReset).fontLoc = s.fontLoc := rfl
@[simp] theorem State.cpuReset_status : (s.cpuReset).status = .running := rfl
@[simp] theorem State.cpuReset_fault : (s.cpuReset).fault = none := rfl
@[simp] theorem State.cpuReset_draws : (s.cpuReset).draws = s.draws := rfl

@[simp] theorem State.skipIf_v (c : Bool) : (s.skipIf c).v = s.v := by cases c <;> rfl
@[simp] theorem State.skipIf_i (c : Bool) : (s.skipIf c).i = s.i := by cases c <;> rfl
@[simp] theorem State.skipIf_pc (c : Bool) : (s.skipIf c).pc = if c then s.pc + 2#16 else s.pc := by
  cases c <;> rfl
@[simp] theorem State.skipIf_sp (c : Bool) : (s.skipIf c).sp = s.sp := by cases c <;> rfl
@[simp] theorem State.skipIf_stack (c : Bool) : (s.skipIf c).stack = s.stack := by cases c <;> rfl
@[simp] theorem State.skipIf_dt (c : Bool) : (s.skipIf c).dt = s.dt := by cases c <;> rfl
@[simp] theorem State.skipIf_st (c : Bool) : (s.skipIf c).st = s.st := by cases c <;> rfl
@[simp] theorem State.skipIf_keys (c : Bool) : (s.skipIf c).keys = s.keys := by cases c <;> rfl
@[simp] theorem State.skipIf_mem (c : Bool) : (s.skipIf c).mem = s.mem := by cases c <;> rfl
@[simp] theorem State.skipIf_fb (c : Bool) : (s.skipIf c).fb = s.fb := by cases c <;> rfl
@[simp] theorem State.skipIf_fontLoc (c : Bool) : (s.skipIf c).fontLoc = s.fontLoc := by cases c <;> rfl
@[simp] theorem State.skipIf_status (c : Bool) : (s.skipIf c).status = s.status := by cases c <;> rfl
@[simp] theorem State.skipIf_fault (c : Bool) : (s.skipIf c).fault = s.fault := by cases c <;> rfl
@[simp] theorem State.skipIf_draws (c : Bool) : (s.skipIf c).draws = s.draws := by cases c <;> rfl
@[simp] theorem State.getV_skipIf (c : Bool) (x : Reg) : (s.skipIf c).getV x = s.getV x := by cases c <;> rfl

/-- The draw of `drawByte` is the free value at the counter (R162). -/
@[simp] theorem State.drawByte_fst : s.drawByte.1 = Config.rnd s.draws := rfl

/-- The rollback undoes the advance of the fetch, so a key wait leaves the whole state as it was (R254). -/
@[simp] theorem State.rollback_advance : s.advance.rollback = s := by
  cases s
  simp only [State.rollback, State.advance, State.jump, BitVec.add_sub_cancel]

end Sys2Proof.Machine
end

