-- ==== Sys2Proof/Laws/Ops.lean ====
section
/-! SUPPORT. One lemma for what each shared operation and operand form does: the stack controller, index operands, the lowest key,
the byte lists of the memory instructions, the flags, and the opcode a fault records. -/
namespace Sys2Proof.Machine

/-! ### The stack controller (R27) -/

/-- A push with room: slot SP is written and SP goes up by one. -/
theorem State.push_of_lt {s : State} (w : Word) (h : s.sp.val < 16) :
    s.push w = some { s with stack := s.stack.set s.sp.val w, sp := ⟨s.sp.val + 1, Nat.succ_lt_succ h⟩ } := by
  simp [State.push, h]

/-- A push on a full stack fails. -/
theorem State.push_of_full {s : State} (w : Word) (h : s.sp.val = 16) : s.push w = none := by
  simp [State.push, h]

/-- A push is one of the two. -/
theorem State.push_cases (s : State) (w : Word) :
    (s.sp.val = 16 ∧ s.push w = none) ∨
    (∃ h : s.sp.val < 16, s.push w =
      some { s with stack := s.stack.set s.sp.val w, sp := ⟨s.sp.val + 1, Nat.succ_lt_succ h⟩ }) := by
  by_cases h : s.sp.val < 16
  · exact .inr ⟨h, State.push_of_lt w h⟩
  · have : s.sp.val = 16 := by omega
    exact .inl ⟨this, State.push_of_full w this⟩

/-- A pop of a stack with j + 1 occupied slots gives slot j, which keeps its value, and SP is j. -/
theorem State.pop_of_succ {s : State} (j : Fin 16) (h : s.sp.val = j.val + 1) :
    s.pop = some (s.stack[j.val], { s with sp := ⟨j.val, by omega⟩ }) := by
  simp [State.pop, h]

/-- A pop of an empty stack fails. -/
theorem State.pop_of_empty {s : State} (h : s.sp.val = 0) : s.pop = none := by
  simp [State.pop, h]

/-- A pop is one of the two. -/
theorem State.pop_cases (s : State) :
    (s.sp.val = 0 ∧ s.pop = none) ∨
    (∃ j : Fin 16, s.sp.val = j.val + 1 ∧ s.pop = some (s.stack[j.val], { s with sp := ⟨j.val, by omega⟩ })) := by
  by_cases h : s.sp.val = 0
  · exact .inl ⟨h, State.pop_of_empty h⟩
  · have hlt := s.sp.isLt
    have hj : s.sp.val = (⟨s.sp.val - 1, by omega⟩ : Fin 16).val + 1 := by
      simp only
      omega
    exact .inr ⟨⟨s.sp.val - 1, by omega⟩, hj, State.pop_of_succ _ hj⟩

/-! ### Index operands (R193, R251) -/

@[simp] theorem asIndex_of_lt {b : Byte} (h : b.toNat < 16) : asIndex b = some ⟨b.toNat, h⟩ := by
  simp [asIndex, h]

@[simp] theorem asIndex_of_ge {b : Byte} (h : 16 ≤ b.toNat) : asIndex b = none := by
  simp [asIndex, Nat.not_lt.mpr h]

/-- The key a register value names. -/
theorem keyState_of_eq {s : State} {b : Byte} (k : Fin 16) (h : b.toNat = k.val) : keyState s b = some s.keys[k.val] := by
  have hlt : b.toNat < 16 := h ▸ k.isLt
  simp only [keyState, asIndex_of_lt hlt, h]

/-- No key has a number above 0xF. -/
theorem keyState_of_ge {s : State} {b : Byte} (h : 16 ≤ b.toNat) : keyState s b = none := by
  simp [keyState, h]

/-- The glyph of a digit. -/
theorem glyphOf_of_eq {s : State} {b : Byte} (d : Fin 16) (h : b.toNat = d.val) : glyphOf s b = s.fontLoc[d.val] := by
  have hlt : b.toNat < 16 := h ▸ d.isLt
  simp only [glyphOf, asIndex_of_lt hlt, h]

/-- There is no glyph exactly when the value is no digit or the digit's entry is absent. -/
theorem glyphOf_eq_none_iff {s : State} {b : Byte} :
    glyphOf s b = none ↔ ∀ d : Fin 16, d.val = b.toNat → s.fontLoc[d.val] = none := by
  by_cases h : b.toNat < 16
  · rw [glyphOf_of_eq ⟨b.toNat, h⟩ rfl]
    constructor
    · intro hn d hd
      simpa [hd] using hn
    · exact fun hall => hall ⟨b.toNat, h⟩ rfl
  · simp only [glyphOf, asIndex_of_ge (Nat.not_lt.mp h), true_iff]
    intro d hd
    exact absurd (hd ▸ d.isLt) h

/-! ### Keys (R254) -/

/-- The lowest pressed key is pressed, and no lower key is. -/
theorem lowestKey_eq_some_iff {s : State} {k : Reg} :
    lowestKey s = some k ↔ s.keys[k.val] = true ∧ ∀ j : Fin 16, j < k → s.keys[j.val] = false := by
  constructor
  · intro h
    refine ⟨?_, ?_⟩
    · simpa using List.find?_some h
    · intro j hj
      obtain ⟨as, bs, hab, has⟩ := (List.find?_eq_some_iff_append.mp h).2
      have hsort : (as ++ k :: bs).Pairwise (· < ·) := hab ▸ List.pairwise_lt_finRange 16
      have hmem : j ∈ as ++ k :: bs := hab ▸ List.mem_finRange j
      rw [List.pairwise_append] at hsort
      rcases List.mem_append.mp hmem with hm | hm
      · simpa using has j hm
      · rcases List.mem_cons.mp hm with rfl | hm
        · exact absurd hj (lt_irrefl _)
        · exact absurd hj (not_lt_of_gt ((List.pairwise_cons.mp hsort.2.1).1 j hm))
  · rintro ⟨hk, hlow⟩
    cases hf : lowestKey s with
    | none =>
      have := List.find?_eq_none.mp hf k (List.mem_finRange k)
      simp [hk] at this
    | some k' =>
      have hk' : s.keys[k'.val] = true := by simpa using List.find?_some hf
      rcases lt_trichotomy k' k with hlt | rfl | hlt
      · simp [hlow k' hlt] at hk'
      · rfl
      · obtain ⟨as, bs, hab, has⟩ := (List.find?_eq_some_iff_append.mp hf).2
        have hmem : k ∈ as ++ k' :: bs := hab ▸ List.mem_finRange k
        have hsort : (as ++ k' :: bs).Pairwise (· < ·) := hab ▸ List.pairwise_lt_finRange 16
        rw [List.pairwise_append] at hsort
        rcases List.mem_append.mp hmem with hm | hm
        · have := has k hm
          simp [hk] at this
        · rcases List.mem_cons.mp hm with rfl | hm
          · rfl
          · exact absurd hlt (not_lt_of_gt ((List.pairwise_cons.mp hsort.2.1).1 k hm))

/-- There is no lowest key exactly when no key is pressed. -/
theorem lowestKey_eq_none_iff {s : State} : lowestKey s = none ↔ ∀ j : Fin 16, s.keys[j.val] = false := by
  simp [lowestKey, List.find?_eq_none]

/-! ### The byte lists of the memory instructions (R194, R195) -/

@[simp] theorem length_bcdDigits (b : Byte) : (bcdDigits b).length = 3 := rfl

@[simp] theorem length_regsUpTo (s : State) (x : Reg) : (regsUpTo s x).length = x.val + 1 := by
  have := x.isLt
  simp [regsUpTo]

/-- The r-th byte of V0..Vx is Vr. -/
theorem getD_regsUpTo (s : State) {x r : Reg} (h : r ≤ x) : (regsUpTo s x).getD r.val 0 = s.getV r := by
  have hx := x.isLt
  have hr := r.isLt
  have hle : r.val ≤ x.val := h
  simp [regsUpTo, State.getV, List.getD, show r.val < x.val + 1 by omega]

/-! ### Flags (R150) -/

@[simp] theorem toNat_flagByte (c : Bool) : (flagByte c).toNat = if c then 1 else 0 := by
  cases c <;> rfl

theorem toNat_carryFlag (a b : Byte) : (carryFlag a b).toNat = if a.toNat + b.toNat > 0xFF then 1 else 0 := by
  simp [carryFlag]

theorem toNat_noBorrowFlag (a b : Byte) : (noBorrowFlag a b).toNat = if b.toNat ≤ a.toNat then 1 else 0 := by
  simp [noBorrowFlag]

theorem toNat_shrFlag (a : Byte) : (shrFlag a).toNat = a.toNat % 2 := by
  simp [shrFlag, Nat.and_one_is_mod]

theorem toNat_shlFlag (a : Byte) : (shlFlag a).toNat = a.toNat / 128 := by
  simp [shlFlag, Nat.shiftRight_eq_div_pow]

/-! ### The opcode a fault records (R282) -/

/-- The word at pc, high byte first, or none when a byte of it is outside Memory. -/
theorem State.fetchedOpcode_eq (s : State) : s.fetchedOpcode =
    if s.pc.toNat + 1 < 4096 then some (joinBytes (s.mem.read s.pc.toNat) (s.mem.read (s.pc.toNat + 1))) else none := by
  by_cases h : s.pc.toNat + 1 < 4096
  · simp [State.fetchedOpcode, readWord_of_lt h, h]
  · simp [State.fetchedOpcode, readWord_of_ge (Nat.not_lt.mp h), h]

end Sys2Proof.Machine
end

