-- ==== Sys2Proof/Laws/Display.lean ====
section
/-! SUPPORT. What the pixel engine does: one cell, then a sprite as one pass over the list of the cells its 1 bits fall on. -/
namespace Sys2Proof.Machine

/-! ### One cell (R223) -/

/-- The XOR with on takes a nonzero cell to 0x00 exactly when the cell held 0x01. -/
theorem onToOff_iff (old : Byte) : (old != 0x00 && (old ^^^ pixelOn) == 0x00) = decide (old = 0x01) := by
  revert old
  decide

/-- One blit of a cell: the cell XORed with 0x01, the collision set when it held 0x01. -/
theorem blitCell_eq (f : Blit) (idx : Nat) :
    blitCell f idx = (f.1.write idx (f.1.read idx ^^^ 0x01), f.2 || decide (f.1.read idx = 0x01)) := by
  simp only [blitCell, onToOff_iff]
  rfl

/-- Everything a pass over distinct cells does: each listed cell is XORed with 0x01, every other cell is as before, the collision is
set when a listed cell held 0x01, and the canonical form is kept. -/
theorem foldl_blitCell (cells : List Nat) (f : Blit) (hnd : cells.Nodup) (hb : ∀ idx ∈ cells, idx < 2048)
    (hw : Framebuffer.wf f.1 = true) :
    Framebuffer.wf (cells.foldl blitCell f).1 = true ∧
    (∀ idx, (cells.foldl blitCell f).1.read idx = if idx ∈ cells then f.1.read idx ^^^ 0x01 else f.1.read idx) ∧
    ((cells.foldl blitCell f).2 = true ↔ f.2 = true ∨ ∃ idx ∈ cells, f.1.read idx = 0x01) := by
  induction cells generalizing f with
  | nil => exact ⟨hw, by simp, by simp⟩
  | cons c cs ih =>
    obtain ⟨hc, hnd'⟩ := List.nodup_cons.mp hnd
    have hw' : Framebuffer.wf (blitCell f c).1 = true := by
      rw [blitCell_eq]
      exact Framebuffer.wf_write _ (hb c (List.mem_cons_self ..)) hw
    have hread : ∀ idx, (blitCell f c).1.read idx = if idx = c then f.1.read c ^^^ 0x01 else f.1.read idx := by
      intro idx
      rw [blitCell_eq]
      by_cases h : idx = c
      · subst h
        simp only [if_pos]
        exact Framebuffer.read_write_self idx _ hw
      · simp only [h, if_false]
        exact Framebuffer.read_write_of_ne f.1 _ h
    obtain ⟨h1, h2, h3⟩ := ih (blitCell f c) hnd' (fun idx hm => hb idx (List.mem_cons_of_mem _ hm)) hw'
    refine ⟨h1, fun idx => ?_, ?_⟩
    · rw [List.foldl_cons, h2 idx, hread idx]
      by_cases hic : idx = c
      · subst hic
        simp [hc]
      · simp [hic]
    · rw [List.foldl_cons, h3]
      have hcol : (blitCell f c).2 = (f.2 || decide (f.1.read c = 0x01)) := by rw [blitCell_eq]
      rw [hcol]
      simp only [Bool.or_eq_true, decide_eq_true_eq, List.mem_cons, exists_eq_or_imp, or_assoc]
      refine or_congr_right (or_congr_right ?_)
      refine exists_congr fun idx => and_congr_right fun hm => ?_
      have hne : idx ≠ c := fun e => hc (e ▸ hm)
      rw [hread idx, if_neg hne]

/-! ### A sprite as a list of cells -/

/-- The cells under the 1 bits of one sprite byte at row `y`, left to right. -/
def rowCells (x0 y : Nat) (b : Byte) : List Nat :=
  ((List.range 8).filter fun c => b.getLsbD (7 - c)).map fun c => cellIndex (x0 + c) y

/-- The cells under the 1 bits of a sprite from row `y` down. -/
def spriteCells (x0 : Nat) : Nat → List Byte → List Nat
  | _, [] => []
  | y, b :: bs => rowCells x0 y b ++ spriteCells x0 (y + 1) bs

theorem blitRow_eq_foldl (x0 y : Nat) (b : Byte) (f : Blit) : blitRow x0 y b f = (rowCells x0 y b).foldl blitCell f := by
  rw [blitRow, rowCells, List.foldl_map, List.foldl_filter]

theorem blitRows_eq_foldl (x0 y : Nat) (bs : List Byte) (f : Blit) :
    blitRows x0 y bs f = (spriteCells x0 y bs).foldl blitCell f := by
  induction bs generalizing y f with
  | nil => rfl
  | cons b bs ih => rw [blitRows, ih, blitRow_eq_foldl, spriteCells, List.foldl_append]

/-- The blit is one pass over the cells under the sprite's 1 bits. -/
theorem drawSprite_eq_foldl (f : Framebuffer) (x0 y0 : Nat) (sprite : List Byte) :
    drawSprite f x0 y0 sprite = (spriteCells x0 y0 sprite).foldl blitCell (f, false) := blitRows_eq_foldl ..

/-- A cell is under the sprite when some row r and column c of it has a 1 bit there (R223). -/
theorem mem_spriteCells {x0 y0 idx : Nat} {sprite : List Byte} :
    idx ∈ spriteCells x0 y0 sprite ↔
      ∃ r c, r < sprite.length ∧ c < 8 ∧ (sprite.getD r 0).getLsbD (7 - c) = true ∧ idx = cellIndex (x0 + c) (y0 + r) := by
  induction sprite generalizing y0 with
  | nil => simp [spriteCells]
  | cons b bs ih =>
    rw [spriteCells, List.mem_append, ih]
    constructor
    · rintro (h | ⟨r, c, hr, hc, hbit, rfl⟩)
      · simp only [rowCells, List.mem_map, List.mem_filter, List.mem_range] at h
        obtain ⟨c, ⟨hc, hbit⟩, rfl⟩ := h
        exact ⟨0, c, by simp, hc, by simpa using hbit, by simp⟩
      · exact ⟨r + 1, c, by simpa using hr, hc, by simpa using hbit, by rw [show y0 + 1 + r = y0 + (r + 1) by omega]⟩
    · rintro ⟨r, c, hr, hc, hbit, rfl⟩
      cases r with
      | zero =>
        left
        simp only [rowCells, List.mem_map, List.mem_filter, List.mem_range]
        exact ⟨c, ⟨hc, by simpa using hbit⟩, by simp⟩
      | succ r =>
        right
        exact ⟨r, c, by simpa using hr, hc, by simpa using hbit, by rw [show y0 + 1 + r = y0 + (r + 1) by omega]⟩

theorem spriteCells_lt {x0 y0 : Nat} {sprite : List Byte} : ∀ idx ∈ spriteCells x0 y0 sprite, idx < 2048 := by
  intro idx h
  obtain ⟨r, c, -, -, -, rfl⟩ := mem_spriteCells.mp h
  exact cellIndex_lt _ _

/-- Two cells of one 8-column, 32-row window are the same only in the same column and row: the screen is wider than a sprite and as
high as any (R223). -/
theorem cellIndex_inj {x0 y0 r r' c c' : Nat} (hr : r < 32) (hr' : r' < 32) (hc : c < 8) (hc' : c' < 8)
    (h : cellIndex (x0 + c) (y0 + r) = cellIndex (x0 + c') (y0 + r')) : r = r' ∧ c = c' := by
  simp only [cellIndex, Config.screenW, Config.screenH] at h
  omega

/-- No cell is touched twice by one blit of at most 32 rows (R223). -/
theorem nodup_spriteCells {x0 y0 : Nat} {sprite : List Byte} (h : sprite.length ≤ 32) :
    (spriteCells x0 y0 sprite).Nodup := by
  induction sprite generalizing y0 with
  | nil => exact List.nodup_nil
  | cons b bs ih =>
    simp only [List.length_cons] at h
    rw [spriteCells, List.nodup_append]
    refine ⟨?_, ih (by omega), ?_⟩
    · refine List.Nodup.map_on ?_ (List.nodup_range.filter _)
      intro c hc c' hc' heq
      simp only [List.mem_filter, List.mem_range] at hc hc'
      exact (cellIndex_inj (y0 := y0) (r := 0) (r' := 0) (by omega) (by omega) hc.1 hc'.1 heq).2
    · intro i hi j hj hij
      subst hij
      simp only [rowCells, List.mem_map, List.mem_filter, List.mem_range] at hi
      obtain ⟨c, ⟨hc, -⟩, rfl⟩ := hi
      obtain ⟨r, c', hr, hc', -, heq⟩ := mem_spriteCells.mp hj
      rw [show y0 + 1 + r = y0 + (r + 1) by omega] at heq
      have := (cellIndex_inj (y0 := y0) (r := 0) (r' := r + 1) (by omega) (by omega) hc hc' heq).1
      omega

/-- Everything DrawSprite does for a sprite of at most 32 rows (R223, R224). -/
theorem drawSprite_spec (f : Framebuffer) (x0 y0 : Nat) (sprite : List Byte) (h : sprite.length ≤ 32)
    (hw : Framebuffer.wf f = true) :
    Framebuffer.wf (drawSprite f x0 y0 sprite).1 = true ∧
    (∀ idx, (drawSprite f x0 y0 sprite).1.read idx =
      if idx ∈ spriteCells x0 y0 sprite then f.read idx ^^^ 0x01 else f.read idx) ∧
    ((drawSprite f x0 y0 sprite).2 = true ↔ ∃ idx ∈ spriteCells x0 y0 sprite, f.read idx = 0x01) := by
  rw [drawSprite_eq_foldl]
  simpa using foldl_blitCell (spriteCells x0 y0 sprite) (f, false) (nodup_spriteCells h) spriteCells_lt hw

end Sys2Proof.Machine
end

