-- ==== Sys2Proof/Laws/Exec.lean ====
section
/-! SUPPORT. What each instruction answers, said once per constructor in terms of the state updates: an equation where it always
completes the same way, all of its cases where it can fault or wait. Later proofs cite these and never unfold a meaning. -/
namespace Sys2Proof.Machine

/-! ### Shared meanings -/

/-- A store at I that fits. -/
theorem storeAtI_of_le {s : State} {bs : List Byte} (h : s.i.toNat + bs.length ≤ 4096) :
    ∃ m, storeAtI s bs = .next (s.advance.setMem m) ∧ (Memory.wf s.mem = true → Memory.wf m = true) ∧
      (∀ b, (b < s.i.toNat ∨ s.i.toNat + bs.length ≤ b) → m.read b = s.mem.read b) ∧
      (Memory.wf s.mem = true → ∀ k, k < bs.length → m.read (s.i.toNat + k) = bs.getD k 0) := by
  obtain ⟨m, hm, hwf, hout, hin⟩ := writeBlock_of_le bs (m := s.mem) h
  exact ⟨m, by simp [storeAtI, effAddr, hm], hwf, hout, hin⟩

/-- A store at I that does not fit. -/
theorem storeAtI_of_gt {s : State} {bs : List Byte} (hn : bs ≠ []) (h : 4096 < s.i.toNat + bs.length) :
    storeAtI s bs = .next (s.raise .addressOutOfBounds (max s.i.toNat 4096)) := by
  simp [storeAtI, effAddr, writeBlock_of_gt hn h]

/-- A key skip on a key that exists. -/
theorem skipOnKey_of_eq {s : State} {x : Reg} {want : Bool} (k : Fin 16) (h : (s.getV x).toNat = k.val) :
    skipOnKey s x want = .next (s.advance.skipIf (s.keys[k.val] == want)) := by
  simp [skipOnKey, keyState_of_eq k h]

/-- A key skip on a number that is no key. -/
theorem skipOnKey_of_ge {s : State} {x : Reg} {want : Bool} (h : 16 ≤ (s.getV x).toNat) :
    skipOnKey s x want = .next (s.raise .indexOutOfBounds (s.getV x).toNat) := by
  simp [skipOnKey, keyState_of_ge h]

/-! ### The instructions that always complete the same way -/

variable (s : State) (x y : Reg) (kk : Byte) (nnn : Addr12)

theorem exec_cls : exec .cls s = .next (s.advance.setFb Framebuffer.cleared) := rfl
theorem exec_exit : exec .exit s = .next s.advance.halt := rfl
theorem exec_jp : exec (.jp nnn) s = .next (s.jump (zext12 nnn)) := rfl
theorem exec_jpV0 : exec (.jpV0 nnn) s = .next (s.jump (zext8 (s.getV 0) + zext12 nnn)) := rfl
theorem exec_seByte : exec (.seByte x kk) s = .next (s.advance.skipIf (s.getV x == kk)) := rfl
theorem exec_sneByte : exec (.sneByte x kk) s = .next (s.advance.skipIf (s.getV x != kk)) := rfl
theorem exec_seReg : exec (.seReg x y) s = .next (s.advance.skipIf (s.getV x == s.getV y)) := rfl
theorem exec_sneReg : exec (.sneReg x y) s = .next (s.advance.skipIf (s.getV x != s.getV y)) := rfl
theorem exec_ldByte : exec (.ldByte x kk) s = .next (s.advance.setV x kk) := rfl
theorem exec_addByte : exec (.addByte x kk) s = .next (s.advance.setV x (s.getV x + kk)) := rfl
theorem exec_ldReg : exec (.ldReg x y) s = .next (s.advance.setV x (s.getV y)) := rfl
theorem exec_orReg : exec (.orReg x y) s = .next (s.advance.setV x (s.getV x ||| s.getV y)) := rfl
theorem exec_andReg : exec (.andReg x y) s = .next (s.advance.setV x (s.getV x &&& s.getV y)) := rfl
theorem exec_xorReg : exec (.xorReg x y) s = .next (s.advance.setV x (s.getV x ^^^ s.getV y)) := rfl
theorem exec_addReg : exec (.addReg x y) s =
    .next (s.advance.setVFlag x (s.getV x + s.getV y) (carryFlag (s.getV x) (s.getV y))) := rfl
theorem exec_subReg : exec (.subReg x y) s =
    .next (s.advance.setVFlag x (s.getV x - s.getV y) (noBorrowFlag (s.getV x) (s.getV y))) := rfl
theorem exec_subnReg : exec (.subnReg x y) s =
    .next (s.advance.setVFlag x (s.getV y - s.getV x) (noBorrowFlag (s.getV y) (s.getV x))) := rfl
theorem exec_shr : exec (.shr x) s = .next (s.advance.setVFlag x (s.getV x >>> 1) (shrFlag (s.getV x))) := rfl
theorem exec_shl : exec (.shl x) s = .next (s.advance.setVFlag x (s.getV x <<< 1) (shlFlag (s.getV x))) := rfl
theorem exec_rnd : exec (.rnd x kk) s = .next (s.drawByte.2.advance.setV x (Config.rnd s.draws &&& kk)) := rfl
theorem exec_ldI : exec (.ldI nnn) s = .next (s.advance.setI (zext12 nnn)) := rfl
theorem exec_addI : exec (.addI x) s = .next (s.advance.setI (s.i + zext8 (s.getV x))) := rfl
theorem exec_ldFromDt : exec (.ldFromDt x) s = .next (s.advance.setV x s.dt) := rfl
theorem exec_ldDt : exec (.ldDt x) s = .next (s.advance.setDT (s.getV x)) := rfl
theorem exec_ldSt : exec (.ldSt x) s = .next (s.advance.setST (s.getV x)) := rfl

/-! ### The instructions that can fault or wait -/

theorem exec_call_cases :
    (s.sp.val = 16 ∧ exec (.call nnn) s = .next (s.raise .stackOverflow s.sp.val)) ∨
    (∃ h : s.sp.val < 16, exec (.call nnn) s =
      .next { s with stack := s.stack.set s.sp.val (s.pc + 2#16), sp := ⟨s.sp.val + 1, Nat.succ_lt_succ h⟩, pc := zext12 nnn }) := by
  rcases State.push_cases s (s.pc + 2#16) with ⟨h, hp⟩ | ⟨h, hp⟩
  · exact .inl ⟨h, by simp [exec, execCall, hp]⟩
  · exact .inr ⟨h, by simp [exec, execCall, hp, State.jump]⟩

theorem exec_ret_cases :
    (s.sp.val = 0 ∧ exec .ret s = .next (s.raise .stackUnderflow s.sp.val)) ∨
    (∃ j : Fin 16, s.sp.val = j.val + 1 ∧ exec .ret s = .next { s with sp := ⟨j.val, by omega⟩, pc := s.stack[j.val] }) := by
  rcases State.pop_cases s with ⟨h, hp⟩ | ⟨j, h, hp⟩
  · exact .inl ⟨h, by simp [exec, execRet, hp]⟩
  · exact .inr ⟨j, h, by simp [exec, execRet, hp, State.jump]⟩

theorem exec_skp_cases :
    (16 ≤ (s.getV x).toNat ∧ exec (.skp x) s = .next (s.raise .indexOutOfBounds (s.getV x).toNat)) ∨
    (∃ k : Fin 16, (s.getV x).toNat = k.val ∧ exec (.skp x) s = .next (s.advance.skipIf (s.keys[k.val] == true))) := by
  by_cases h : (s.getV x).toNat < 16
  · exact .inr ⟨⟨_, h⟩, rfl, skipOnKey_of_eq ⟨_, h⟩ rfl⟩
  · exact .inl ⟨Nat.not_lt.mp h, skipOnKey_of_ge (Nat.not_lt.mp h)⟩

theorem exec_sknp_cases :
    (16 ≤ (s.getV x).toNat ∧ exec (.sknp x) s = .next (s.raise .indexOutOfBounds (s.getV x).toNat)) ∨
    (∃ k : Fin 16, (s.getV x).toNat = k.val ∧ exec (.sknp x) s = .next (s.advance.skipIf (s.keys[k.val] == false))) := by
  by_cases h : (s.getV x).toNat < 16
  · exact .inr ⟨⟨_, h⟩, rfl, skipOnKey_of_eq ⟨_, h⟩ rfl⟩
  · exact .inl ⟨Nat.not_lt.mp h, skipOnKey_of_ge (Nat.not_lt.mp h)⟩

theorem exec_ldKey_cases :
    ((∀ j : Fin 16, s.keys[j.val] = false) ∧ exec (.ldKey x) s = .next s) ∨
    (∃ k : Fin 16, lowestKey s = some k ∧ exec (.ldKey x) s = .next (s.advance.setV x (keyByte k))) := by
  cases h : lowestKey s with
  | none => exact .inl ⟨lowestKey_eq_none_iff.mp h, by simp [exec, execLdKey, h]⟩
  | some k => exact .inr ⟨k, rfl, by simp [exec, execLdKey, h]⟩

theorem exec_ldFont_cases :
    (glyphOf s (s.getV x) = none ∧ exec (.ldFont x) s = .next (s.raise .indexOutOfBounds (s.getV x).toNat)) ∨
    (∃ d : Fin 16, ∃ w, (s.getV x).toNat = d.val ∧ s.fontLoc[d.val] = some w ∧
      exec (.ldFont x) s = .next (s.advance.setI w)) := by
  cases h : glyphOf s (s.getV x) with
  | none => exact .inl ⟨rfl, by simp [exec, execLdFont, h]⟩
  | some w =>
    by_cases hlt : (s.getV x).toNat < 16
    · rw [glyphOf_of_eq ⟨_, hlt⟩ rfl] at h
      exact .inr ⟨⟨_, hlt⟩, w, rfl, h, by simp [exec, execLdFont, glyphOf_of_eq ⟨_, hlt⟩ rfl, h]⟩
    · simp [glyphOf, Nat.not_lt.mp hlt] at h

theorem exec_ldBcd : exec (.ldBcd x) s = storeAtI s (bcdDigits (s.getV x)) := rfl

theorem exec_storeRegs : exec (.storeRegs x) s = storeAtI s (regsUpTo s x) := rfl

theorem regsUpTo_ne_nil : regsUpTo s x ≠ [] := by
  intro h
  simpa using congrArg List.length h

/-- A block load that fits, or one that faults. -/
theorem exec_loadRegs_cases :
    (4096 < s.i.toNat + (x.val + 1) ∧
      exec (.loadRegs x) s = .next (s.raise .addressOutOfBounds (max s.i.toNat 4096))) ∨
    (s.i.toNat + (x.val + 1) ≤ 4096 ∧
      exec (.loadRegs x) s = .next (s.advance.setVBlock (s.mem.slice s.i.toNat (x.val + 1)))) := by
  by_cases h : s.i.toNat + (x.val + 1) ≤ 4096
  · exact .inr ⟨h, by simp [exec, execLoadRegs, effAddr, readBlock_of_le h]⟩
  · exact .inl ⟨by omega, by simp [exec, execLoadRegs, effAddr, readBlock_of_gt (Nat.succ_pos _) (Nat.not_le.mp h)]⟩

/-- A draw whose bytes are in Memory (or that has none), or one that faults. -/
theorem exec_drw_cases (n : Nibble) :
    ((n ≠ 0 ∧ 4096 < s.i.toNat + n.toNat) ∧
      exec (.drw x y n) s = .next (s.raise .addressOutOfBounds (max s.i.toNat 4096))) ∨
    (¬(n ≠ 0 ∧ 4096 < s.i.toNat + n.toNat) ∧ ∃ b : Blit,
      b = drawSprite s.fb (s.getV x).toNat (s.getV y).toNat (s.mem.slice s.i.toNat n.toNat) ∧
      exec (.drw x y n) s = .next ((s.advance.setFb b.1).setV regF (flagByte b.2))) := by
  by_cases h : n ≠ 0 ∧ 4096 < s.i.toNat + n.toNat
  · have hn : 0 < n.toNat := Nat.pos_of_ne_zero fun e => h.1 (BitVec.eq_of_toNat_eq (by simpa using e))
    exact .inl ⟨h, by simp [exec, execDrw, effAddr, readBlock_of_gt hn h.2]⟩
  · refine .inr ⟨h, _, rfl, ?_⟩
    have hr : readBlock s.mem s.i.toNat n.toNat = .ok (s.mem.slice s.i.toNat n.toNat) := by
      by_cases hn : n = 0
      · subst hn
        rfl
      · exact readBlock_of_le (Nat.not_lt.mp fun hlt => h ⟨hn, hlt⟩)
    simp [exec, execDrw, effAddr, hr]

end Sys2Proof.Machine
end

