-- ==== Sys2Proof/Laws/PerInstr.lean ====
section
/-! SUPPORT. Statements about every instruction as syntax, one lemma per constructor. Family EncodeMeetsRow: the encoder's word is
one that the instruction's row of the opcode table (R86) selects. -/
namespace Sys2Proof.Laws.EncodeMeetsRow

/-- The word of `i` meets the match and mask of its row. -/
def Statement (i : Instr) : Prop := i.row.selects (encode i) = true

theorem encNNN_and (t : Nibble) (nnn : Addr12) : encNNN t nnn &&& 0xF000#16 = t ++ 0#12 := by
  rw [show (0xF000#16) = BitVec.allOnes 4 ++ 0#12 from rfl, encNNN, BitVec.and_append, BitVec.and_allOnes, BitVec.and_zero]

theorem encXKK_and_family (t : Nibble) (x : Reg) (kk : Byte) : encXKK t x kk &&& 0xF000#16 = t ++ 0#4 ++ 0#8 := by
  rw [show (0xF000#16) = BitVec.allOnes 4 ++ 0#4 ++ 0#8 from rfl, encXKK, BitVec.and_append, BitVec.and_append,
    BitVec.and_allOnes, BitVec.and_zero, BitVec.and_zero]

theorem encXKK_and_kk (t : Nibble) (x : Reg) (kk : Byte) : encXKK t x kk &&& 0xF0FF#16 = t ++ 0#4 ++ kk := by
  rw [show (0xF0FF#16) = BitVec.allOnes 4 ++ 0#4 ++ BitVec.allOnes 8 from rfl, encXKK, BitVec.and_append, BitVec.and_append,
    BitVec.and_allOnes, BitVec.and_allOnes, BitVec.and_zero]

theorem encXYN_and_family (t : Nibble) (x y : Reg) (n : Nibble) :
    encXYN t x y n &&& 0xF000#16 = t ++ 0#4 ++ 0#4 ++ 0#4 := by
  rw [show (0xF000#16) = BitVec.allOnes 4 ++ 0#4 ++ 0#4 ++ 0#4 from rfl, encXYN, BitVec.and_append, BitVec.and_append,
    BitVec.and_append, BitVec.and_allOnes, BitVec.and_zero, BitVec.and_zero, BitVec.and_zero]

theorem encXYN_and_n (t : Nibble) (x y : Reg) (n : Nibble) :
    encXYN t x y n &&& 0xF00F#16 = t ++ 0#4 ++ 0#4 ++ n := by
  rw [show (0xF00F#16) = BitVec.allOnes 4 ++ 0#4 ++ 0#4 ++ BitVec.allOnes 4 from rfl, encXYN, BitVec.and_append,
    BitVec.and_append, BitVec.and_append, BitVec.and_allOnes, BitVec.and_allOnes, BitVec.and_zero, BitVec.and_zero]

/-- The statement in the form the lemmas below give. -/
theorem of_eq {i : Instr} {op mask m w : Word} (hr : i.row = ⟨i.row.mnemonic, m, mask⟩) (he : encode i = op)
    (ha : op &&& mask = w) (hw : w = m) : Statement i := by
  rw [Statement, hr, OpcodeRow.selects, he, ha, hw]
  exact beq_self_eq_true m

theorem cls : Statement .cls := rfl
theorem ret : Statement .ret := rfl
theorem exit : Statement .exit := rfl
theorem jp (nnn : Addr12) : Statement (.jp nnn) := of_eq rfl rfl (encNNN_and ..) rfl
theorem call (nnn : Addr12) : Statement (.call nnn) := of_eq rfl rfl (encNNN_and ..) rfl
theorem seByte (x : Reg) (kk : Byte) : Statement (.seByte x kk) := of_eq rfl rfl (encXKK_and_family ..) rfl
theorem sneByte (x : Reg) (kk : Byte) : Statement (.sneByte x kk) := of_eq rfl rfl (encXKK_and_family ..) rfl
theorem seReg (x y : Reg) : Statement (.seReg x y) := of_eq rfl rfl (encXYN_and_family ..) rfl
theorem sneReg (x y : Reg) : Statement (.sneReg x y) := of_eq rfl rfl (encXYN_and_family ..) rfl
theorem ldByte (x : Reg) (kk : Byte) : Statement (.ldByte x kk) := of_eq rfl rfl (encXKK_and_family ..) rfl
theorem addByte (x : Reg) (kk : Byte) : Statement (.addByte x kk) := of_eq rfl rfl (encXKK_and_family ..) rfl
theorem ldReg (x y : Reg) : Statement (.ldReg x y) := of_eq rfl rfl (encXYN_and_n ..) rfl
theorem orReg (x y : Reg) : Statement (.orReg x y) := of_eq rfl rfl (encXYN_and_n ..) rfl
theorem andReg (x y : Reg) : Statement (.andReg x y) := of_eq rfl rfl (encXYN_and_n ..) rfl
theorem xorReg (x y : Reg) : Statement (.xorReg x y) := of_eq rfl rfl (encXYN_and_n ..) rfl
theorem addReg (x y : Reg) : Statement (.addReg x y) := of_eq rfl rfl (encXYN_and_n ..) rfl
theorem subReg (x y : Reg) : Statement (.subReg x y) := of_eq rfl rfl (encXYN_and_n ..) rfl
theorem shr (x : Reg) : Statement (.shr x) := of_eq rfl rfl (encXYN_and_n ..) rfl
theorem subnReg (x y : Reg) : Statement (.subnReg x y) := of_eq rfl rfl (encXYN_and_n ..) rfl
theorem shl (x : Reg) : Statement (.shl x) := of_eq rfl rfl (encXYN_and_n ..) rfl
theorem ldI (nnn : Addr12) : Statement (.ldI nnn) := of_eq rfl rfl (encNNN_and ..) rfl
theorem jpV0 (nnn : Addr12) : Statement (.jpV0 nnn) := of_eq rfl rfl (encNNN_and ..) rfl
theorem rnd (x : Reg) (kk : Byte) : Statement (.rnd x kk) := of_eq rfl rfl (encXKK_and_family ..) rfl
theorem drw (x y : Reg) (n : Nibble) : Statement (.drw x y n) := of_eq rfl rfl (encXYN_and_family ..) rfl
theorem skp (x : Reg) : Statement (.skp x) := of_eq rfl rfl (encXKK_and_kk ..) rfl
theorem sknp (x : Reg) : Statement (.sknp x) := of_eq rfl rfl (encXKK_and_kk ..) rfl
theorem ldFromDt (x : Reg) : Statement (.ldFromDt x) := of_eq rfl rfl (encXKK_and_kk ..) rfl
theorem ldKey (x : Reg) : Statement (.ldKey x) := of_eq rfl rfl (encXKK_and_kk ..) rfl
theorem ldDt (x : Reg) : Statement (.ldDt x) := of_eq rfl rfl (encXKK_and_kk ..) rfl
theorem ldSt (x : Reg) : Statement (.ldSt x) := of_eq rfl rfl (encXKK_and_kk ..) rfl
theorem addI (x : Reg) : Statement (.addI x) := of_eq rfl rfl (encXKK_and_kk ..) rfl
theorem ldFont (x : Reg) : Statement (.ldFont x) := of_eq rfl rfl (encXKK_and_kk ..) rfl
theorem ldBcd (x : Reg) : Statement (.ldBcd x) := of_eq rfl rfl (encXKK_and_kk ..) rfl
theorem storeRegs (x : Reg) : Statement (.storeRegs x) := of_eq rfl rfl (encXKK_and_kk ..) rfl
theorem loadRegs (x : Reg) : Statement (.loadRegs x) := of_eq rfl rfl (encXKK_and_kk ..) rfl

end Sys2Proof.Laws.EncodeMeetsRow
end

