-- ==== Sys2Proof/Laws/Step.lean ====
section
/-! SUPPORT. What a step does, said once: nothing in a halted machine; the fault of its fetch, the fault of its decode or the
instruction's meaning in a running one. -/
namespace Sys2Proof.Machine

/-- A step of a machine that is not running changes nothing (R93). -/
theorem step_of_not_running {s : State} (h : s.status ≠ .running) : step s = .next s := by
  cases hs : s.status <;> simp_all [step, haltedStep]

/-- A step whose fetch leaves Memory (R92). -/
theorem step_of_fetch_fault {s : State} (hr : s.status = .running) (h : 4096 ≤ s.pc.toNat + 1) :
    step s = .next (s.raise .addressOutOfBounds (max s.pc.toNat 4096)) := by
  simp [step, hr, fetchDecode, readWord_of_ge h]

/-- A step whose word has no handler (R89). -/
theorem step_of_unmapped {s : State} {op : Word} (hr : s.status = .running) (h : s.fetchedOpcode = some op)
    (hd : decodeWord op = none) : step s = .next (s.raise .unimplementedOpcode op.toNat) := by
  rw [State.fetchedOpcode_eq] at h
  split at h
  · rename_i hlt
    obtain rfl := Option.some.inj h
    simp [step, hr, fetchDecode, readWord_of_lt hlt, hd]
  · cases h

/-- A step whose word decodes is the instruction's meaning (R93). -/
theorem step_of_decoded {s : State} {op : Word} {i : Instr} (hr : s.status = .running) (h : s.fetchedOpcode = some op)
    (hd : decodeWord op = some i) : step s = exec i s := by
  rw [State.fetchedOpcode_eq] at h
  split at h
  · rename_i hlt
    obtain rfl := Option.some.inj h
    simp [step, hr, fetchDecode, readWord_of_lt hlt, hd]
  · cases h

/-- A fetch that gives no word is one that leaves Memory. -/
theorem State.fetchedOpcode_eq_none_iff {s : State} : s.fetchedOpcode = none ↔ 4096 ≤ s.pc.toNat + 1 := by
  rw [State.fetchedOpcode_eq]
  split <;> simp <;> omega

/-- All that a step can do: one of these four. -/
theorem step_cases (s : State) :
    (s.status ≠ .running ∧ step s = .next s) ∨
    (s.status = .running ∧ 4096 ≤ s.pc.toNat + 1 ∧
      step s = .next (s.raise .addressOutOfBounds (max s.pc.toNat 4096))) ∨
    (∃ op, s.status = .running ∧ s.pc.toNat + 1 < 4096 ∧ s.fetchedOpcode = some op ∧ decodeWord op = none ∧
      step s = .next (s.raise .unimplementedOpcode op.toNat)) ∨
    (∃ op i, s.status = .running ∧ s.pc.toNat + 1 < 4096 ∧ s.fetchedOpcode = some op ∧ decodeWord op = some i ∧
      step s = exec i s) := by
  by_cases hr : s.status = .running
  · cases hf : s.fetchedOpcode with
    | none =>
      have h := State.fetchedOpcode_eq_none_iff.mp hf
      exact .inr (.inl ⟨hr, h, step_of_fetch_fault hr h⟩)
    | some op =>
      have hlt : s.pc.toNat + 1 < 4096 := by
        by_contra hge
        rw [State.fetchedOpcode_eq_none_iff.mpr (Nat.not_lt.mp hge)] at hf
        cases hf
      cases hd : decodeWord op with
      | none => exact .inr (.inr (.inl ⟨op, hr, hlt, rfl, hd, step_of_unmapped hr hf hd⟩))
      | some i => exact .inr (.inr (.inr ⟨op, i, hr, hlt, rfl, hd, step_of_decoded hr hf hd⟩))
  · exact .inl ⟨hr, step_of_not_running hr⟩

/-- The state after a step is the next state it answers. -/
theorem stepState_of_next {s t : State} (h : step s = .next t) : stepState s = t := by
  simp [stepState, h]

/-- What Step returns of a running machine: ok unless it became faulted (R93). -/
theorem stepResult_of_running {s t : State} (hr : s.status = .running) (h : step s = .next t) :
    (t.status ≠ .faulted → stepResult s = .ok) ∧
    (∀ r, t.status = .faulted → t.fault = some r → stepResult s = .fault r) := by
  refine ⟨fun hne => ?_, fun r hf hfr => ?_⟩
  · cases hs : t.status <;> simp_all [stepResult, stepState_of_next h]
  · simp [stepResult, hr, stepState_of_next h, hf, hfr]

end Sys2Proof.Machine
end

