-- ==== Sys2Proof/Tests/Slice0.lean ====
section
/-! SUPPORT. Tests: ill-formed words refused, each constructor's decoding from its word written out bit by bit (30_encoding.md R86),
one-step vectors of 95_test_vectors.md (each named by its id), and for every obligation with hypotheses a state that meets them. -/
namespace Sys2Proof.Tests
open Sys2Proof Sys2Proof.Machine

/-! ### Well-formedness: what each check refuses -/

theorem test_wf_family0 : wordWellFormed 0x0123 = false := by decide
theorem test_wf_family8 : wordWellFormed 0x8008 = false := by decide
theorem test_wf_familyE : wordWellFormed 0xE19F = false := by decide
theorem test_wf_familyF : wordWellFormed 0xF0FF = false := by decide
theorem test_wf_ignored_bits : wordWellFormed 0x01E0 = true ∧ wordWellFormed 0x5121 = true := by decide
theorem test_wf_opcode_addr : opcodeAddrWellFormed 4095 = false ∧ opcodeAddrWellFormed 4094 = true := by decide
theorem test_wf_rom : romWellFormed (List.replicate 3585 0) = false ∧ romWellFormed (List.replicate 3584 0) = true := by
  rw [romWellFormed, romWellFormed, List.length_replicate, List.length_replicate]
  decide
theorem test_wf_table : opcodeTable.length = 35 ∧
    opcodeTable.Pairwise (fun r q => (r.matchBits ^^^ q.matchBits) &&& (r.mask &&& q.mask) ≠ 0) := by decide +kernel

/-! ### Decoding: one word of each row of R86, bit by bit -/

theorem test_decode_cls : decode [0b00000000, 0b11100000] = .ok (.cls, []) := by decide
theorem test_decode_ret : decode [0b00000000, 0b11101110] = .ok (.ret, []) := by decide
theorem test_decode_exit : decode [0b00000000, 0b11111101] = .ok (.exit, []) := by decide
theorem test_decode_jp : decode [0b00010010, 0b10100000] = .ok (.jp 0x2A0, []) := by decide
theorem test_decode_call : decode [0b00100010, 0b01010000] = .ok (.call 0x250, []) := by decide
theorem test_decode_seByte : decode [0b00110101, 0b00010010] = .ok (.seByte 0x5 0x12, []) := by decide
theorem test_decode_sneByte : decode [0b01001010, 0b00010011] = .ok (.sneByte 0xA 0x13, []) := by decide
theorem test_decode_seReg : decode [0b01010001, 0b00100000] = .ok (.seReg 1 2, []) := by decide
theorem test_decode_sneReg : decode [0b10010001, 0b00100000] = .ok (.sneReg 1 2, []) := by decide
theorem test_decode_ldByte : decode [0b01101010, 0b00000111] = .ok (.ldByte 0xA 0x07, []) := by decide
theorem test_decode_addByte : decode [0b01110011, 0b00000001] = .ok (.addByte 3 0x01, []) := by decide
theorem test_decode_ldReg : decode [0b10000011, 0b01110000] = .ok (.ldReg 3 7, []) := by decide
theorem test_decode_orReg : decode [0b10000011, 0b01110001] = .ok (.orReg 3 7, []) := by decide
theorem test_decode_andReg : decode [0b10000011, 0b01110010] = .ok (.andReg 3 7, []) := by decide
theorem test_decode_xorReg : decode [0b10000011, 0b01110011] = .ok (.xorReg 3 7, []) := by decide
theorem test_decode_addReg : decode [0b10000011, 0b01110100] = .ok (.addReg 3 7, []) := by decide
theorem test_decode_subReg : decode [0b10000011, 0b01110101] = .ok (.subReg 3 7, []) := by decide
theorem test_decode_shr : decode [0b10000011, 0b01110110] = .ok (.shr 3, []) := by decide
theorem test_decode_subnReg : decode [0b10000011, 0b01110111] = .ok (.subnReg 3 7, []) := by decide
theorem test_decode_shl : decode [0b10000011, 0b01111110] = .ok (.shl 3, []) := by decide
theorem test_decode_ldI : decode [0b10100001, 0b00100011] = .ok (.ldI 0x123, []) := by decide
theorem test_decode_jpV0 : decode [0b10110101, 0b00000000] = .ok (.jpV0 0x500, []) := by decide
theorem test_decode_rnd : decode [0b11000100, 0b00001111] = .ok (.rnd 4 0x0F, []) := by decide
theorem test_decode_drw : decode [0b11010001, 0b00101111] = .ok (.drw 1 2 0xF, []) := by decide
theorem test_decode_skp : decode [0b11100011, 0b10011110] = .ok (.skp 3, []) := by decide
theorem test_decode_sknp : decode [0b11100011, 0b10100001] = .ok (.sknp 3, []) := by decide
theorem test_decode_ldFromDt : decode [0b11110101, 0b00000111] = .ok (.ldFromDt 5, []) := by decide
theorem test_decode_ldKey : decode [0b11110011, 0b00001010] = .ok (.ldKey 3, []) := by decide
theorem test_decode_ldDt : decode [0b11110010, 0b00010101] = .ok (.ldDt 2, []) := by decide
theorem test_decode_ldSt : decode [0b11110010, 0b00011000] = .ok (.ldSt 2, []) := by decide
theorem test_decode_addI : decode [0b11110110, 0b00011110] = .ok (.addI 6, []) := by decide
theorem test_decode_ldFont : decode [0b11111001, 0b00101001] = .ok (.ldFont 9, []) := by decide
theorem test_decode_ldBcd : decode [0b11111010, 0b00110011] = .ok (.ldBcd 0xA, []) := by decide
theorem test_decode_storeRegs : decode [0b11110010, 0b01010101] = .ok (.storeRegs 2, []) := by decide
theorem test_decode_loadRegs : decode [0b11110010, 0b01100101] = .ok (.loadRegs 2, []) := by decide

/-- Ignored bits (R87; D-3, D-4, D-8) and unmapped words (D-2, D-5, D-6, D-7). -/
theorem test_decode_ignored : decodeWord 0x01E0 = some .cls ∧ decodeWord 0x0AEE = some .ret ∧
    decodeWord 0x5121 = some (.seReg 1 2) ∧ decodeWord 0x912F = some (.sneReg 1 2) := by decide
theorem test_decode_unmapped : [0x0000, 0x0123, 0x8008, 0x800F, 0xE000, 0xE19F, 0xF000, 0xF0FF].map decodeWord =
    List.replicate 8 none := by decide
theorem test_decode_truncated : decode [0x60] = .error .truncated := by decide

/-- The row of each constructor is one its own match and mask select, and the host's table entry decodes. -/
theorem test_decodeTableWord : decodeTableWord 16 0x8374 = some (.addReg 3 7) ∧ decodeTableWord 16 0x0123 = none := by decide

/-! ### Disassembly (S1 to S3, D-10 to D-12) -/

theorem test_disassemble_S1 : disassemble 0x6A07 = some "LD   VA, 0x07" := by decide
theorem test_disassemble_S2 : disassemble 0x8374 = some "ADD  V3, V7" := by decide
theorem test_disassemble_S3 : disassemble 0x12A0 = some "JP   0x2A0" := by decide
theorem test_disassemble_D10 : disassemble 0x5121 = some "SE   V1, V2" ∧ disassemble 0x8F06 = some "SHR  VF" ∧
    disassemble 0xD12F = some "DRW  V1, V2, 0xF" ∧ disassemble 0x00E0 = some "CLS" := by decide
theorem test_disassemble_D11 : disassemble 0x0123 = none ∧ disassembleAt State.reset 0xFFF = none := by decide

/-! ### One step

The start state of 95_test_vectors.md is the power-on state; the word is stored where the step fetches it. -/

/-- The state after one step of `w` from `s`. -/
def after (s : State) (w : Nat) : State := stepState (s.withFetchWord 16 w)

/-- The power-on state with V0 and V1 set. -/
def regs01 (a b : Byte) : State := (State.reset.setV 0 a).setV 1 b

/-- The power-on state with I set. -/
def atI (a : Word) : State := State.reset.setI a

/-- The fault a vector names, raised at 0x200 by the word `w`. -/
def faultAt200 (k : FaultKind) (w : Word) (info : Nat) : Option FaultRecord :=
  some { kind := k, addr := 0x200, opcode := some w, info := info }

/-- The power-on state with the key `k` pressed. -/
def withKey (s : State) (k : Fin 16) : State := setKeys s (s.keys.set k.val true)

-- decoder and fetch
theorem test_D1 : (after State.reset 0x0000).fault = faultAt200 .unimplementedOpcode 0x0000 0 := by decide
theorem test_P1 : (after (State.reset.jump 0xFFE) 0x6012).getV 0 = 0x12 ∧
    (after (State.reset.jump 0xFFE) 0x6012).pc = 0x1000 := by decide
theorem test_P2 : stepResult (State.reset.jump 0xFFF) =
    .fault { kind := .addressOutOfBounds, addr := 0xFFF, opcode := none, info := 0x1000 } := by decide
theorem test_P4 : (after (State.reset.jump 0x201) 0x6005).getV 0 = 0x05 ∧ (after (State.reset.jump 0x201) 0x6005).pc = 0x203 := by
  decide
theorem test_P5 : stepState State.reset.halt = State.reset.halt ∧ stepResult State.reset.halt = .exited := by decide
theorem test_P6 : stepResult (stepState State.reset) = .refused (faultAt200 .unimplementedOpcode 0x0000 0) := by decide

-- control flow
theorem test_F1 : (after State.reset 0x12A0).pc = 0x2A0 := by decide
theorem test_F4 : (after State.reset 0x2250).stack[0] = 0x202 ∧ (after State.reset 0x2250).sp = 1 ∧
    (after State.reset 0x2250).pc = 0x250 := by decide
theorem test_F5 : after { State.reset with sp := 16 } 0x2200 =
    { State.reset.withFetchWord 16 0x2200 with
      sp := 16, status := .faulted, fault := faultAt200 .stackOverflow 0x2200 16 } := by decide
theorem test_F7 : (after State.reset 0x00EE).fault = faultAt200 .stackUnderflow 0x00EE 0 := by decide
theorem test_F8 : let t := after { State.reset with sp := 1, stack := State.reset.stack.set 0 0x206 } 0x00EE
    t.pc = 0x206 ∧ t.sp = 0 ∧ t.stack[0] = 0x206 := by decide
theorem test_F9 : (after State.reset 0x00FD).status = .exited ∧ (after State.reset 0x00FD).pc = 0x202 := by decide
theorem test_F10_F11 : (after (regs01 5 0) 0x3005).pc = 0x204 ∧ (after (regs01 6 0) 0x3005).pc = 0x202 := by decide
theorem test_F12_F13 : (after (regs01 5 0) 0x4005).pc = 0x202 ∧ (after (regs01 6 0) 0x4005).pc = 0x204 := by decide
theorem test_F14_F15 : (after (regs01 3 3) 0x5010).pc = 0x204 ∧ (after (regs01 3 4) 0x5010).pc = 0x202 := by decide
theorem test_F16_F17 : (after (regs01 3 4) 0x9010).pc = 0x204 ∧ (after (regs01 3 0) 0x9000).pc = 0x202 := by decide
theorem test_F19_F20 : (after (regs01 0xFF 0) 0xBFFF).pc = 0x10FE ∧
    (after (State.reset.setV 5 0x40) 0xB500).pc = 0x500 := by decide

-- arithmetic and logic
theorem test_A1 : (after State.reset 0x6A07).getV 0xA = 0x07 := by decide
theorem test_A2 : (after ((regs01 0xFF 0).setV 0xF 0x55) 0x7001).getV 0 = 0x00 ∧
    (after ((regs01 0xFF 0).setV 0xF 0x55) 0x7001).getV 0xF = 0x55 := by decide
theorem test_R153 : (after (regs01 0 0x5A) 0x8010).getV 0 = 0x5A := by decide
theorem test_A4 : (after ((regs01 0x0F 0xF0).setV 0xF 0x77) 0x8011).getV 0 = 0xFF ∧
    (after ((regs01 0x0F 0xF0).setV 0xF 0x77) 0x8011).getV 0xF = 0x77 := by decide
theorem test_A5 : (after (regs01 0x3C 0x0F) 0x8012).getV 0 = 0x0C := by decide
theorem test_A6 : (after (regs01 0x3C 0x0F) 0x8013).getV 0 = 0x33 := by decide
theorem test_S6 : (after (regs01 0xFF 0x01) 0x8014).getV 0 = 0x00 ∧ (after (regs01 0xFF 0x01) 0x8014).getV 0xF = 1 := by
  decide
theorem test_A9 : (after ((regs01 0 1).setV 0xF 0xFF) 0x8F14).getV 0xF = 0x01 := by decide
theorem test_A11 : (after (regs01 0x10 0x20) 0x8015).getV 0 = 0xF0 ∧ (after (regs01 0x10 0x20) 0x8015).getV 0xF = 0 := by
  decide
theorem test_A12 : (after ((regs01 0 3).setV 0xF 5) 0x8F15).getV 0xF = 0x01 := by decide
theorem test_A13 : (after (regs01 0x10 0x20) 0x8017).getV 0 = 0x10 ∧ (after (regs01 0x10 0x20) 0x8017).getV 0xF = 1 := by
  decide
theorem test_A16 : (after (regs01 0x81 0x55) 0x8016).getV 0 = 0x40 ∧ (after (regs01 0x81 0x55) 0x8016).getV 0xF = 1 := by
  decide
theorem test_A17 : (after (State.reset.setV 0xF 0x02) 0x8F06).getV 0xF = 0x00 := by decide
theorem test_A18 : (after (regs01 0x81 0) 0x801E).getV 0 = 0x02 ∧ (after (regs01 0x81 0) 0x801E).getV 0xF = 1 := by decide
theorem test_A20 : (after (State.reset.setV 0xF 0x80) 0x8F0E).getV 0xF = 0x01 := by decide
theorem test_R162 : (after State.reset 0xC00F).getV 0 = Config.rnd 0 &&& 0x0F := rfl
theorem test_A22 : (after State.reset 0xC000).getV 0 = 0x00 := (BitVec.and_zero : Config.rnd 0 &&& 0x00 = 0x00)

-- index register and memory
theorem test_M1 : (after State.reset 0xA123).i = 0x123 := by decide
theorem test_M3 : let t := after (((atI 0xFFFF).setV 0 2).setV 0xF 9) 0xF01E
    t.i = 0x0001 ∧ t.getV 0xF = 9 := by decide
theorem test_M5 : (after (regs01 0x0A 0) 0xF029).i = 0x082 := by decide
theorem test_M7 : (after (regs01 0x10 0) 0xF029).fault = faultAt200 .indexOutOfBounds 0xF029 0x10 := by decide
theorem test_M8 : bytesAt (after ((atI 0x300).setV 0 0xFF) 0xF033) 0x300 3 = [2, 5, 5] := by decide
theorem test_M12 : after ((atI 0xFFE).setV 0 0x7B) 0xF033 =
    { ((atI 0xFFE).setV 0 0x7B).withFetchWord 16 0xF033 with
      status := .faulted, fault := faultAt200 .addressOutOfBounds 0xF033 0x1000 } := by decide
theorem test_M13 : let t := after ((atI 0x300).setV 0 0xAA) 0xF055
    bytesAt t 0x300 2 = [0xAA, 0x00] ∧ t.i = 0x300 := by decide
theorem test_M15 : let t := after (((atI 0xFFF).setV 0 1).setV 1 2) 0xF155
    t.fault = faultAt200 .addressOutOfBounds 0xF155 0x1000 ∧ t.mem.read 0xFFF = 0 := by decide
theorem test_M16 : let t := after { atI 0x300 with mem := [(0x300, 0x10), (0x301, 0x11), (0x302, 0x12)] } 0xF165
    t.getV 0 = 0x10 ∧ t.getV 1 = 0x11 ∧ t.getV 2 = 0 ∧ t.i = 0x300 := by decide
theorem test_M17 : let t := after ((atI 0xFFF).setV 0 9) 0xF165
    t.status = .faulted ∧ t.getV 0 = 9 := by decide

-- display
theorem test_G1 : (after ((setPixel State.reset 5 5 1).setV 0xF 3) 0x00E0).fb = [] ∧
    (after ((setPixel State.reset 5 5 1).setV 0xF 3) 0x00E0).getV 0xF = 3 := by decide
theorem test_G2 : let s := (regs01 0x3E 0x1F).setI 0x300
    let t := after { s with mem := [(0x300, 0xFF), (0x301, 0x81)] } 0xD012
    t.fb = [(5, 1), (62, 1), (1984, 1), (1985, 1), (1986, 1), (1987, 1), (1988, 1), (1989, 1), (2046, 1), (2047, 1)] ∧
      t.getV 0xF = 0 := by decide
theorem test_G6 : let s := (setPixel (setPixel (atI 0x300) 0 0 1) 1 0 1)
    let t := after { s with mem := [(0x300, 0x60)] } 0xD011
    t.fb = [(0, 1), (2, 1)] ∧ t.getV 0xF = 1 := by decide
theorem test_G8 : let t := after { setPixel (atI 0x300) 0 0 5 with mem := [(0x300, 0x80)] } 0xD011
    getPixel t 0 0 = 4 ∧ t.getV 0xF = 0 := by decide

-- timers and keys
theorem test_T1_T2 : (after (regs01 5 0) 0xE09E).pc = 0x202 ∧ (after (withKey (regs01 5 0) 5) 0xE09E).pc = 0x204 := by decide
theorem test_T3_T4 : (after (regs01 5 0) 0xE0A1).pc = 0x204 ∧ (after (withKey (regs01 5 0) 5) 0xE0A1).pc = 0x202 := by decide
theorem test_T5 : (after (regs01 0x10 0) 0xE09E).fault = faultAt200 .indexOutOfBounds 0xE09E 0x10 := by decide
theorem test_T6 : (after (State.reset.setDT 0x3C) 0xF507).getV 5 = 0x3C := by decide
theorem test_T7 : let t := after (withKey (withKey State.reset 0xC) 3) 0xF30A
    t.getV 3 = 3 ∧ t.pc = 0x202 := by decide
theorem test_S11 : (after State.reset 0xF00A).pc = 0x200 ∧ stepResult (State.reset.withFetchWord 16 0xF00A) = .ok := by decide
theorem test_T8 : (after (State.reset.setV 2 0x3C) 0xF215).dt = 0x3C := by decide
theorem test_T9 : (after ((State.reset.setV 2 0).setST 7) 0xF218).st = 0 := by decide

/-! ### Transactions -/

theorem test_S10 : let t := updateTimers ((State.reset.setDT 2).setST 1)
    t.dt = 1 ∧ t.st = 0 ∧ (updateTimers (updateTimers t)).dt = 0 ∧ (updateTimers (updateTimers t)).st = 0 := by decide
theorem test_T11 : (updateTimers (State.reset.setDT 5).halt).dt = 4 := by decide
theorem test_S4 : bytesAt (perform State.reset (.loadRom [0x6A, 0x07, 0x12, 0x00])).2 0x200 5 = [0x6A, 0x07, 0x12, 0x00, 0x00] := by
  decide
theorem test_X1 : let s := (setPixel { stepState State.reset with mem := [(0x300, 0x12)] } 0 0 1).setV 3 9
    perform s .cpuReset = (.done, { State.reset with mem := [(0x300, 0x12)], fb := [(0, 1)] }) := by decide
theorem test_X2 : stepResult State.reset =
    .fault { kind := .unimplementedOpcode, addr := 0x200, opcode := some 0x0000, info := 0 } := by decide
theorem test_X3 : bytesAt State.reset 0x050 5 = [0xF0, 0x90, 0x90, 0x90, 0xF0] := by decide
theorem test_R330 : runCycles 3 (State.reset.withFetchWord 16 0x2200) =
    (none, { State.reset.withFetchWord 16 0x2200 with sp := 3, stack := (((State.reset.stack.set 0 0x202).set 1 0x202).set 2 0x202) }) := by
  decide

/-! ### Witnesses: states and operands that meet the hypotheses of each obligation that has some -/

/-- A state that meets the invariant, other than the power-on state: one instruction in, a key pressed, a cell on. -/
def started : State := setPixel (withKey (State.reset.withFetchWord 16 0x6A07) 3) 1 1 1

theorem started_inv : started.Inv where
  mem_wf      := by decide
  fb_wf       := by decide
  pc_le       := by decide
  stack_le    := by decide
  font_loc    := by decide
  fault_iff   := by decide
  fault_shape := fun _ h => nomatch h

/-- `DecodesAs`: the match bits of every row are a word that meets its hypothesis. -/
theorem witness_DecodesAs : ∀ i ∈ Instr.oneOfEach, i.row.matchBits &&& i.row.mask = i.row.matchBits := by decide
theorem witness_EncodeKeepsExaminedBits : decodeWord 0x5121 = some (.seReg 1 2) := by decide
theorem witness_DecodeFollowsOpcodeTable :
    decodeWord 0x01E0 = some .cls ∧ Instr.row .cls ∈ opcodeTable ∧ (Instr.row .cls).selects 0x01E0 = true := by decide
theorem witness_OpcodesAreBigEndian : 0xFFE + 1 < 4096 ∧ Memory.wf started.mem = true := by decide
theorem witness_DisassemblyIsPure : decodeWord 0x6A07 = some (.ldByte 0xA 0x07) ∧ decodeWord 0x0123 = none := by decide
theorem witness_StepRunsDecodedInstruction : let s := (State.reset.jump 0xFFE).withFetchWord 16 0x6012
    s.status = .running ∧ s.pc.toNat + 1 < 4096 ∧
      decode [s.mem.read s.pc.toNat, s.mem.read (s.pc.toNat + 1)] = .ok (.ldByte 0 0x12, []) := by decide
theorem witness_FetchAndDecodeFaults :
    ((State.reset.jump 0xFFF).status = .running ∧ 0xFFF ≤ (State.reset.jump 0xFFF).pc.toNat) ∧
    (State.reset.status = .running ∧ opcodeAtPc State.reset = some 0 ∧ decodeWord 0 = none) ∧
    opcodeAtPc (State.reset.jump 0xFFE) = some 0 := by decide
theorem witness_HaltedMachineStaysPut :
    State.reset.halt.status = .exited ∧ (stepState State.reset).status = .faulted := by decide
theorem witness_FaultsArePrecise : let s := State.reset.withFetchWord 16 0x00EE
    s.status = .running ∧ step s = .next (after State.reset 0x00EE) ∧ (after State.reset 0x00EE).status = .faulted :=
  ⟨rfl, rfl, rfl⟩
theorem witness_FaultCausesAreTheListed :
    started.status = .running ∧ step started = .next (stepState started) ∧ (stepState started).status = .running :=
  ⟨rfl, rfl, rfl⟩
/-- The stored bytes hold both bytes of the next opcode (StoreOpcode, LoadRom, LD [I]), or one of them (WriteByte, LD B). -/
theorem witness_FetchSeesStores :
    (let s := started.jump 0xFFE
     let t := (perform s (.storeOpcode 0xFFE 0x6A07)).2
     Memory.wf s.mem = true ∧ 0xFFE + 1 < 4096 ∧ t.status = .running ∧ t.pc.toNat + 1 < 4096 ∧
       decodeWord (joinBytes (storedOver s.mem 0xFFE [0x6A, 0x07] 0xFFE) (storedOver s.mem 0xFFE [0x6A, 0x07] 0xFFF)) =
         some (.ldByte 0xA 0x07)) ∧
    decodeWord (joinBytes (storedOver started.mem 0x201 [0x55] 0x200) (storedOver started.mem 0x201 [0x55] 0x201)) =
      some (.ldByte 0xA 0x55) ∧
    decodeWord (joinBytes (storedOver [] 0x200 [0x12, 0xA0] 0x200) (storedOver [] 0x200 [0x12, 0xA0] 0x201)) = some (.jp 0x2A0) := by
  decide
theorem witness_FetchSeesStores_instructions :
    (let s := (regs01 0x60 0x12).setI 0x202
     exec (.storeRegs 1) s = .next (s.advance.setMem [(0x202, 0x60), (0x203, 0x12)]) ∧ Memory.wf s.mem = true ∧
       s.advance.status = .running ∧ s.advance.pc.toNat + 1 < 4096 ∧
       decodeWord (joinBytes (storedOver s.mem 0x202 (regsUpTo s 1) 0x202) (storedOver s.mem 0x202 (regsUpTo s 1) 0x203)) =
         some (.ldByte 0 0x12)) ∧
    (let s := ((regs01 123 0).setI 0x203).setMem [(0x202, 0x60)]
     exec (.ldBcd 0) s = .next (s.advance.setMem [(0x202, 0x60), (0x203, 1), (0x204, 2), (0x205, 3)]) ∧
       decodeWord (joinBytes (storedOver s.mem 0x203 (bcdDigits 123) 0x202) (storedOver s.mem 0x203 (bcdDigits 123) 0x203)) =
         some (.ldByte 0 0x01)) :=
  ⟨⟨rfl, by decide, by decide, by decide, by decide⟩, ⟨rfl, by decide⟩⟩
theorem witness_StepKeepsInvariant : started.Inv ∧ step started = .next (stepState started) :=
  ⟨started_inv, rfl⟩
theorem witness_SchedulesKeepInvariant : started.Inv := started_inv
theorem witness_PixelsStayBinary :
    started.Inv ∧ started.PixelsBinary ∧ ∀ x y b, Transaction.setPixel x y b ∉ [.step, .monitorReset] := by
  refine ⟨started_inv, fun idx => ?_, by simp⟩
  show Cells.read _ [(65, 1)] idx = _ ∨ Cells.read _ [(65, 1)] idx = _
  simp only [Cells.read]
  split <;> simp

theorem witness_JumpSetsPc : State.reset.pc.toNat = (0x200 : Addr12).toNat ∧ State.reset.status = .running := by decide
theorem witness_CallPushesAndJumps :
    ({ State.reset with sp := 0 } : State).sp.val < 16 ∧ ({ State.reset with sp := 15 } : State).sp.val < 16 ∧
    ({ State.reset with sp := 16 } : State).sp.val = 16 := by decide
theorem witness_ReturnPopsAddress :
    ({ State.reset with sp := 1 } : State).sp.val = (0 : Fin 16).val + 1 ∧
    ({ State.reset with sp := 16 } : State).sp.val = (15 : Fin 16).val + 1 ∧ State.reset.sp.val = 0 := by decide
theorem witness_ReturnUndoesCall : let s := { State.reset with sp := 15 }
    let t := stepState (s.withFetchWord 16 0x2250)
    (s.withFetchWord 16 0x2250).sp.val < 16 ∧ exec (.call 0x250) (s.withFetchWord 16 0x2250) = .next t :=
  ⟨by decide, rfl⟩
theorem witness_FontLookup :
    (((regs01 0 0).getV 0).toNat = (0 : Fin 16).val ∧ (regs01 0 0).fontLoc[(0 : Fin 16).val] = some 0x050) ∧
    (((regs01 0xF 0).getV 0).toNat = (15 : Fin 16).val ∧ (regs01 0xF 0).fontLoc[(15 : Fin 16).val] = some 0x09B) ∧
    Raises (.ldFont 0) (regs01 0x10 0) ∧ Raises (.ldFont 0) { State.reset with fontLoc := Vector.replicate 16 none } := by
  refine ⟨by decide, by decide, ?_, ?_⟩ <;> (show ∀ _, _) <;> decide
theorem witness_DecimalStore : Memory.wf (atI 0xFFD).mem = true ∧ effAddr (atI 0xFFD) 3 ≤ 4096 ∧ 4096 < effAddr (atI 0xFFE) 3 := by
  decide
theorem witness_RegisterBlockStore : Memory.wf (atI 0xFFF).mem = true ∧
    effAddr (atI 0xFFF) ((0 : Reg).val + 1) ≤ 4096 ∧ effAddr (atI 0xFF0) ((15 : Reg).val + 1) ≤ 4096 ∧
    4096 < effAddr (atI 0x1000) ((0 : Reg).val + 1) ∧ 4096 < effAddr (atI 0xFF1) ((15 : Reg).val + 1) := by decide
theorem witness_RegisterBlockLoad :
    effAddr (atI 0xFFF) ((0 : Reg).val + 1) ≤ 4096 ∧ effAddr (atI 0xFF0) ((15 : Reg).val + 1) ≤ 4096 ∧
    4096 < effAddr (atI 0x1000) ((0 : Reg).val + 1) ∧ 4096 < effAddr (atI 0xFF1) ((15 : Reg).val + 1) := by decide
theorem witness_DrawXorsThePicture : Framebuffer.wf (atI 0xFFF).fb = true ∧
    ¬ Raises (.drw 0 1 0) (atI 0xFFFF) ∧ ¬ Raises (.drw 0 1 1) (atI 0xFFF) ∧ ¬ Raises (.drw 0 1 0xF) (atI 0xFF1) ∧
    Raises (.drw 0 1 1) (atI 0x1000) ∧ Raises (.drw 0 1 0xF) (atI 0xFF2) := by
  simp only [Raises]
  decide
theorem witness_SkipsOnKey : ((regs01 0 0).getV 0).toNat = (0 : Fin 16).val ∧ ((regs01 0xF 0).getV 0).toNat = (15 : Fin 16).val ∧
    0xF < ((regs01 0x10 0).getV 0).toNat := by decide
theorem witness_KeyWaitEnds :
    (let s := withKey (withKey State.reset 0xC) 3
     s.keys[(3 : Fin 16).val] = true ∧ ∀ j : Fin 16, j < 3 → s.keys[j.val] = false) ∧
    (let s := withKey State.reset 0xF
     s.keys[(15 : Fin 16).val] = true ∧ ∀ j : Fin 16, j < 15 → s.keys[j.val] = false) := by decide
theorem witness_KeyWaitRetries : let s := State.reset.withFetchWord 16 0xF30A
    (∀ j : Fin 16, s.keys[j.val] = false) ∧ s.status = .running ∧ opcodeAtPc s = some 0xF30A ∧
    decodeWord 0xF30A = some (.ldKey 3) := by decide

theorem witness_OnlyFlagInstructionsWriteVF : let s := regs01 0xFF 1
    exec (.addReg 0 1) s = .next ((s.advance.setV 0 0).setV 0xF 1) ∧ ((s.advance.setV 0 0).setV 0xF 1).getV 0xF ≠ s.getV 0xF :=
  ⟨rfl, by decide⟩
theorem witness_OnlyIndexInstructionsWriteI :
    exec (.ldI 0x123) State.reset = .next (State.reset.advance.setI 0x123) ∧
    (State.reset.advance.setI 0x123).i ≠ State.reset.i := ⟨rfl, by decide⟩
theorem witness_StackDiscipline :
    (let s := State.reset.withFetchWord 16 0x2250
     exec (.call 0x250) s = .next (stepState s) ∧ (stepState s).stack ≠ s.stack ∧ (stepState s).sp ≠ s.sp) ∧
    (let s := ({ State.reset with sp := 16 } : State).withFetchWord 16 0x2250
     s.sp.val = 16 ∧ exec (.call 0x250) s = .next (stepState s)) ∧
    (let s := State.reset.withFetchWord 16 0x00EE
     s.sp.val = 0 ∧ exec .ret s = .next (stepState s)) :=
  ⟨⟨rfl, by decide, by decide⟩, ⟨rfl, rfl⟩, ⟨rfl, rfl⟩⟩
theorem witness_TimersOutsideTheInstructionLoop : let s := regs01 5 0
    (exec (.ldDt 0) s = .next (s.advance.setDT 5) ∧ (s.advance.setDT 5).dt ≠ s.dt) ∧
    (exec (.ldSt 0) s = .next (s.advance.setST 5) ∧ (s.advance.setST 5).st ≠ s.st) :=
  ⟨⟨rfl, by decide⟩, ⟨rfl, by decide⟩⟩
theorem witness_KeysAndFontMapAreReadOnly : let s := withKey State.reset 3
    exec (.ldKey 0) s = .next (s.advance.setV 0 3) := rfl
theorem witness_OnlyStoresWriteMemory : let s := (atI 0x300).setV 0 9
    exec (.storeRegs 0) s = .next (s.advance.setMem [(0x300, 9)]) ∧
    (s.advance.setMem [(0x300, 9)]).mem.read 0x300 ≠ s.mem.read 0x300 := ⟨rfl, by decide⟩
theorem witness_OnlyDisplayInstructionsUseTheFramebuffer :
    (exec .cls started = .next (started.advance.setFb []) ∧ (started.advance.setFb []).fb.read 65 ≠ started.fb.read 65) ∧
    (∀ x y n, Instr.cls ≠ .drw x y n) := by
  refine ⟨⟨rfl, by decide⟩, ?_⟩
  intro x y n h
  cases h

theorem witness_LoadRomWritesTheRom : Memory.wf started.mem = true ∧ ([] : List Byte).length ≤ 3584 ∧
    (List.replicate 3584 (0x12 : Byte)).length ≤ 3584 ∧ 3584 < (List.replicate 3585 (0x12 : Byte)).length := by
  rw [List.length_replicate, List.length_replicate]
  decide
theorem witness_HostMemoryAccess : Memory.wf started.mem = true ∧ 0xFFF < 4096 ∧ 0xFFE + 1 < 4096 ∧ 4096 ≤ 0x1000 ∧ 4096 ≤ 0xFFF + 1 := by decide
theorem witness_MemoryResetAndLoadFont : Memory.wf started.mem = true := by decide
theorem witness_RunCyclesIsIteratedStep : started.Inv ∧ started.status ≠ .faulted ∧ SafeRun 1 started ∧
    (stepState State.reset).status = .faulted ∧ (runCycles 3 State.reset).1 = faultAt200 .unimplementedOpcode 0x0000 0 := by
  refine ⟨started_inv, by decide, ⟨by decide, ?_⟩, by decide, by decide⟩
  show (stepState started).status ≠ .faulted
  decide
theorem witness_ReadsAndInputs : 0xFFE + 1 < 4096 ∧ 0xFFF < 4096 ∧ 4096 ≤ 0xFFF + 1 ∧ Framebuffer.wf started.fb = true := by decide

end Sys2Proof.Tests
end

/-! PROOFS. The invariant `State.Inv` is kept by each state update, by the meaning of each instruction, by a step, by each host
transaction, and so by every schedule (00_scope.md R10). -/
namespace Sys2Proof.Machine

variable {s : State}

/-! ### Updates that leave the pc, the status and the fault record alone -/

theorem State.Inv.setV (h : s.Inv) (x : Reg) (b : Byte) : (s.setV x b).Inv := { h with }

theorem State.Inv.setVFlag (h : s.Inv) (x : Reg) (b f : Byte) : (s.setVFlag x b f).Inv := { h with }

/-- Proved from the field laws of `setVBlock`: unfolding it instead sends the unifier into its `Vector.ofFn`. -/
theorem State.Inv.setVBlock (h : s.Inv) (bs : List Byte) : (s.setVBlock bs).Inv := by
  obtain ⟨hmem, hfb, hpc, hstack, hfont, hiff, hshape⟩ := h
  constructor <;> simpa

theorem State.Inv.setI (h : s.Inv) (w : Word) : (s.setI w).Inv := { h with }

theorem State.Inv.setDT (h : s.Inv) (b : Byte) : (s.setDT b).Inv := { h with }

theorem State.Inv.setST (h : s.Inv) (b : Byte) : (s.setST b).Inv := { h with }

theorem State.Inv.setKeys (h : s.Inv) (k : Vector Bool 16) : (setKeys s k).Inv := { h with }

theorem State.Inv.drawByte (h : s.Inv) : s.drawByte.2.Inv := { h with }

theorem State.Inv.setMem (h : s.Inv) {m : Memory} (hm : Memory.wf m = true) : (s.setMem m).Inv :=
  { h with mem_wf := hm }

theorem State.Inv.setFb (h : s.Inv) {f : Framebuffer} (hf : Framebuffer.wf f = true) : (s.setFb f).Inv :=
  { h with fb_wf := hf }

/-! ### Status, fault record and pc (R25, R285, R287) -/

/-- A running machine records no fault. -/
theorem State.Inv.fault_eq_none (h : s.Inv) (hr : s.status = .running) : s.fault = none := by
  have hnf : s.status ≠ .faulted := by simp [hr]
  simpa using mt h.fault_iff.mp hnf

/-- Fault entry keeps the invariant: the record it writes is of a step, at the current pc (R285). -/
theorem State.Inv.raise (h : s.Inv) {kind : FaultKind} (hk : kind ≠ .romLoadError) (info : Nat) :
    (s.raise kind info).Inv :=
  { h with
    fault_iff   := by simp
    fault_shape := fun r hr => by
      obtain rfl := Option.some.inj hr
      exact ⟨hk, rfl⟩ }

/-- A running machine may move its pc, as no fault record names it. -/
theorem State.Inv.jump (h : s.Inv) (hr : s.status = .running) {w : Word} (hw : w.toNat ≤ 0x10FE) : (s.jump w).Inv :=
  { h with
    pc_le       := hw
    fault_shape := fun r hf => by simp [h.fault_eq_none hr] at hf }

theorem State.Inv.halt (h : s.Inv) (hr : s.status = .running) : s.halt.Inv :=
  { h with fault_iff := by simp [h.fault_eq_none hr] }

/-- The reset writes zeros, pc 0x200 and no fault (R320). -/
theorem State.Inv.cpuReset (h : s.Inv) : s.cpuReset.Inv :=
  { h with
    pc_le       := by simp
    stack_le    := by simp
    fault_iff   := by simp
    fault_shape := by simp }

/-- The address after a fetched opcode is at most 0x1000, and so is every return address (R25). -/
theorem toNat_pc_add_two_le (hp : s.pc.toNat + 1 < 4096) : (s.pc + 2#16).toNat ≤ 0x1000 := by
  rw [BitVec.toNat_add]
  simp only [BitVec.toNat_ofNat]
  omega

theorem State.Inv.advance (h : s.Inv) (hr : s.status = .running) (hp : s.pc.toNat + 1 < 4096) : s.advance.Inv :=
  h.jump hr ((toNat_pc_add_two_le hp).trans (by decide))

/-- A skip adds at most 2 to a pc of at most 0x1000 (R25). -/
theorem State.Inv.advance_skipIf (h : s.Inv) (hr : s.status = .running) (hp : s.pc.toNat + 1 < 4096) (c : Bool) :
    (s.advance.skipIf c).Inv := by
  have ha := h.advance hr hp
  cases c with
  | false => exact ha
  | true =>
    have hle : (s.pc + 2#16 + 2#16).toNat ≤ 0x10FE := by
      have := toNat_pc_add_two_le hp
      rw [BitVec.toNat_add]
      simp only [BitVec.toNat_ofNat]
      omega
    exact ha.jump hr hle

theorem toNat_zext12_le (nnn : Addr12) : (zext12 nnn).toNat ≤ 0xFFF := by
  have := nnn.isLt
  simp only [zext12, BitVec.toNat_setWidth]
  omega

/-- The target of `JP V0, addr` is at most 0xFF + 0xFFF, the largest pc of all (R25). -/
theorem toNat_zext8_add_zext12_le (b : Byte) (nnn : Addr12) : (zext8 b + zext12 nnn).toNat ≤ 0x10FE := by
  have := b.isLt
  have := toNat_zext12_le nnn
  simp only [zext8, BitVec.toNat_add, BitVec.toNat_setWidth]
  omega

/-! ### Memory writes -/

/-- A block write that succeeds keeps the canonical form. -/
theorem writeBlock_keeps_wf {m m' : Memory} {a : Nat} {bs : List Byte} (hw : writeBlock m a bs = .ok m')
    (hm : Memory.wf m = true) : Memory.wf m' = true := by
  by_cases hle : a + bs.length ≤ 4096
  · obtain ⟨m₁, hm₁, hwf, -, -⟩ := writeBlock_of_le bs (m := m) hle
    obtain rfl : m₁ = m' := Except.ok.inj (hm₁.symm.trans hw)
    exact hwf hm
  · by_cases hbs : bs = []
    · subst hbs
      obtain rfl : m = m' := Except.ok.inj hw
      exact hm
    · simp [writeBlock_of_gt hbs (Nat.not_le.mp hle)] at hw

theorem memWrite_keeps_wf {m m' : Memory} {a : Nat} {b : Byte} (hw : memWrite m a b = .ok m')
    (hm : Memory.wf m = true) : Memory.wf m' = true := by
  by_cases ha : a < 4096
  · obtain rfl : m.write a b = m' := Except.ok.inj ((memWrite_of_lt ha).symm.trans hw)
    exact Memory.wf_write b ha hm
  · simp [memWrite_of_ge (Nat.not_lt.mp ha)] at hw

theorem zeroMemory_wf : Memory.wf zeroMemory = true := by
  simp only [zeroMemory]
  split
  next m hm => exact writeBlock_keeps_wf hm rfl
  next => rfl

/-! ### The instructions and the step -/

/-- A store at I answers a state that meets the invariant, stored or faulted. -/
theorem storeAtI_keeps_inv (h : s.Inv) (hr : s.status = .running) (hp : s.pc.toNat + 1 < 4096) {bs : List Byte}
    (hbs : bs ≠ []) : ∃ t, storeAtI s bs = .next t ∧ t.Inv := by
  by_cases hle : s.i.toNat + bs.length ≤ 4096
  · obtain ⟨m, hm, hwf, -, -⟩ := storeAtI_of_le hle
    exact ⟨_, hm, (h.advance hr hp).setMem (hwf h.mem_wf)⟩
  · exact ⟨_, storeAtI_of_gt hbs (Nat.not_le.mp hle), h.raise (by decide) _⟩

/-- A call stores a return address of at most 0x1000 (R25, R124). -/
theorem exec_call_keeps_inv (h : s.Inv) (hr : s.status = .running) (hp : s.pc.toNat + 1 < 4096) (nnn : Addr12) :
    ∃ t, exec (.call nnn) s = .next t ∧ t.Inv := by
  obtain ⟨-, ht⟩ | ⟨hsp, ht⟩ := exec_call_cases s nnn
  · exact ⟨_, ht, h.raise (by decide) _⟩
  · have hj : (s.jump (zext12 nnn)).Inv := h.jump hr ((toNat_zext12_le nnn).trans (by decide))
    refine ⟨_, ht, { hj with stack_le := fun j => ?_ }⟩
    rw [Vector.getElem_set]
    split
    · exact toNat_pc_add_two_le hp
    · exact h.stack_le j

/-- A return goes to an address a stack slot holds (R121). -/
theorem exec_ret_keeps_inv (h : s.Inv) (hr : s.status = .running) : ∃ t, exec .ret s = .next t ∧ t.Inv := by
  obtain ⟨-, ht⟩ | ⟨j, -, ht⟩ := exec_ret_cases s
  · exact ⟨_, ht, h.raise (by decide) _⟩
  · have hj : (s.jump s.stack[j.val]).Inv := h.jump hr ((h.stack_le j).trans (by decide))
    exact ⟨_, ht, { hj with }⟩

/-- A draw keeps the framebuffer canonical (R223). -/
theorem exec_drw_keeps_inv (h : s.Inv) (hr : s.status = .running) (hp : s.pc.toNat + 1 < 4096) (x y : Reg) (n : Nibble) :
    ∃ t, exec (.drw x y n) s = .next t ∧ t.Inv := by
  obtain ⟨-, ht⟩ | ⟨-, b, rfl, ht⟩ := exec_drw_cases s x y n
  · exact ⟨_, ht, h.raise (by decide) _⟩
  · have hlen : (s.mem.slice s.i.toNat n.toNat).length ≤ 32 := by
      have := n.isLt
      rw [Memory.length_slice]
      omega
    obtain ⟨hwf, -, -⟩ := drawSprite_spec s.fb (s.getV x).toNat (s.getV y).toNat _ hlen h.fb_wf
    exact ⟨_, ht, ((h.advance hr hp).setFb hwf).setV _ _⟩

/-- Every instruction, executed where a fetch succeeds, answers a state that meets the invariant. -/
theorem exec_keeps_inv (h : s.Inv) (hr : s.status = .running) (hp : s.pc.toNat + 1 < 4096) (i : Instr) :
    ∃ t, exec i s = .next t ∧ t.Inv := by
  have ha : s.advance.Inv := h.advance hr hp
  cases i with
  | cls => exact ⟨_, exec_cls s, ha.setFb Framebuffer.wf_cleared⟩
  | ret => exact exec_ret_keeps_inv h hr
  | exit => exact ⟨_, exec_exit s, ha.halt hr⟩
  | jp nnn => exact ⟨_, exec_jp s nnn, h.jump hr ((toNat_zext12_le nnn).trans (by decide))⟩
  | call nnn => exact exec_call_keeps_inv h hr hp nnn
  | seByte x kk => exact ⟨_, exec_seByte s x kk, h.advance_skipIf hr hp _⟩
  | sneByte x kk => exact ⟨_, exec_sneByte s x kk, h.advance_skipIf hr hp _⟩
  | seReg x y => exact ⟨_, exec_seReg s x y, h.advance_skipIf hr hp _⟩
  | sneReg x y => exact ⟨_, exec_sneReg s x y, h.advance_skipIf hr hp _⟩
  | ldByte x kk => exact ⟨_, exec_ldByte s x kk, ha.setV _ _⟩
  | addByte x kk => exact ⟨_, exec_addByte s x kk, ha.setV _ _⟩
  | ldReg x y => exact ⟨_, exec_ldReg s x y, ha.setV _ _⟩
  | orReg x y => exact ⟨_, exec_orReg s x y, ha.setV _ _⟩
  | andReg x y => exact ⟨_, exec_andReg s x y, ha.setV _ _⟩
  | xorReg x y => exact ⟨_, exec_xorReg s x y, ha.setV _ _⟩
  | addReg x y => exact ⟨_, exec_addReg s x y, ha.setVFlag _ _ _⟩
  | subReg x y => exact ⟨_, exec_subReg s x y, ha.setVFlag _ _ _⟩
  | shr x => exact ⟨_, exec_shr s x, ha.setVFlag _ _ _⟩
  | subnReg x y => exact ⟨_, exec_subnReg s x y, ha.setVFlag _ _ _⟩
  | shl x => exact ⟨_, exec_shl s x, ha.setVFlag _ _ _⟩
  | ldI nnn => exact ⟨_, exec_ldI s nnn, ha.setI _⟩
  | jpV0 nnn => exact ⟨_, exec_jpV0 s nnn, h.jump hr (toNat_zext8_add_zext12_le _ nnn)⟩
  | rnd x kk => exact ⟨_, exec_rnd s x kk, (h.drawByte.advance hr hp).setV _ _⟩
  | drw x y n => exact exec_drw_keeps_inv h hr hp x y n
  | skp x =>
    obtain ⟨-, ht⟩ | ⟨k, -, ht⟩ := exec_skp_cases s x
    · exact ⟨_, ht, h.raise (by decide) _⟩
    · exact ⟨_, ht, h.advance_skipIf hr hp _⟩
  | sknp x =>
    obtain ⟨-, ht⟩ | ⟨k, -, ht⟩ := exec_sknp_cases s x
    · exact ⟨_, ht, h.raise (by decide) _⟩
    · exact ⟨_, ht, h.advance_skipIf hr hp _⟩
  | ldFromDt x => exact ⟨_, exec_ldFromDt s x, ha.setV _ _⟩
  | ldKey x =>
    obtain ⟨-, ht⟩ | ⟨k, -, ht⟩ := exec_ldKey_cases s x
    · exact ⟨_, ht, h⟩
    · exact ⟨_, ht, ha.setV _ _⟩
  | ldDt x => exact ⟨_, exec_ldDt s x, ha.setDT _⟩
  | ldSt x => exact ⟨_, exec_ldSt s x, ha.setST _⟩
  | addI x => exact ⟨_, exec_addI s x, ha.setI _⟩
  | ldFont x =>
    obtain ⟨-, ht⟩ | ⟨d, w, -, -, ht⟩ := exec_ldFont_cases s x
    · exact ⟨_, ht, h.raise (by decide) _⟩
    · exact ⟨_, ht, ha.setI _⟩
  | ldBcd x => exact storeAtI_keeps_inv h hr hp (List.cons_ne_nil _ _)
  | storeRegs x => exact storeAtI_keeps_inv h hr hp (regsUpTo_ne_nil s x)
  | loadRegs x =>
    obtain ⟨-, ht⟩ | ⟨-, ht⟩ := exec_loadRegs_cases s x
    · exact ⟨_, ht, h.raise (by decide) _⟩
    · exact ⟨_, ht, ha.setVBlock _⟩

/-- Every step answers a next state, and it meets the invariant (R93). -/
theorem step_keeps_inv (h : s.Inv) : ∃ t, step s = .next t ∧ t.Inv := by
  obtain ⟨-, ht⟩ | ⟨-, -, ht⟩ | ⟨op, -, -, -, -, ht⟩ | ⟨op, i, hr, hp, -, -, ht⟩ := step_cases s
  · exact ⟨_, ht, h⟩
  · exact ⟨_, ht, h.raise (by decide) _⟩
  · exact ⟨_, ht, h.raise (by decide) _⟩
  · rw [ht]
    exact exec_keeps_inv h hr hp i

/-! ### The host's transactions (R10) -/

theorem stepState_keeps_inv (h : s.Inv) : (stepState s).Inv := by
  obtain ⟨t, ht, hinv⟩ := step_keeps_inv h
  rwa [stepState_of_next ht]

/-- `RunCycles` leaves the state after its last step, whether it stops at a fault or runs out (R330). -/
theorem runCycles_keeps_inv (n : Nat) (h : s.Inv) : (runCycles n s).2.Inv := by
  induction n generalizing s with
  | zero => exact h
  | succ n ih =>
    have hstep := stepState_keeps_inv h
    rw [runCycles]
    split
    · exact hstep
    · exact hstep
    · exact ih hstep
    · exact ih hstep

/-- A memory access of the host keeps the invariant when the memory it stores, if any, is canonical. -/
theorem hostWrite_keeps_inv (h : s.Inv) {r : Except Nat Memory} (hr : ∀ m, r = .ok m → Memory.wf m = true) :
    (hostWrite s r).2.Inv := by
  cases r with
  | ok m => exact h.setMem (hr m rfl)
  | error a => exact h

theorem loadRom_keeps_inv (h : s.Inv) (bytes : List Byte) : (loadRom s bytes).2.Inv := by
  rw [loadRom]
  split
  · exact hostWrite_keeps_inv h fun m hm => writeBlock_keeps_wf hm h.mem_wf
  · exact h

/-- The digit map that `LoadFont` writes holds the glyphs' addresses (R32, R63). -/
theorem getElem_standardFontLoc :
    ∀ d : Fin 16, standardFontLoc[d.val] = some (BitVec.ofNat 16 (0x050 + 5 * d.val)) := by decide

theorem loadFont_keeps_inv (h : s.Inv) : (loadFont s).Inv := by
  rw [loadFont]
  split
  next m hm => exact { h.setMem (writeBlock_keeps_wf hm h.mem_wf) with font_loc := fun d => .inr (getElem_standardFontLoc d) }
  next => exact h

theorem perform_keeps_inv (h : s.Inv) (t : Transaction) : (perform s t).2.Inv := by
  cases t with
  | step => exact stepState_keeps_inv h
  | runCycles n => exact runCycles_keeps_inv n h
  | runFor ms k => exact runCycles_keeps_inv k h
  | updateTimers => exact (h.setDT _).setST _
  | cpuReset => exact h.cpuReset
  | memoryReset => exact h.setMem zeroMemory_wf
  | monitorReset => exact h.setFb Framebuffer.wf_cleared
  | loadFont => exact loadFont_keeps_inv h
  | loadRom bytes => exact loadRom_keeps_inv h bytes
  | storeOpcode a op => exact hostWrite_keeps_inv h fun m hm => writeBlock_keeps_wf hm h.mem_wf
  | writeByte a b => exact hostWrite_keeps_inv h fun m hm => memWrite_keeps_wf hm h.mem_wf
  | setPixel x y b => exact h.setFb (Framebuffer.wf_write b (cellIndex_lt x y) h.fb_wf)
  | setKeys k => exact h.setKeys k
  | readByte | getPixel | readFramebuffer | peekOpcode | opcodeAt | disassemble | disassembleAt | readState => exact h

/-- Settles O17, by induction on the schedule: each transaction keeps the invariant. -/
theorem schedulesKeepInvariant : Obligations.SchedulesKeepInvariant := by
  unfold Obligations.SchedulesKeepInvariant
  intro ts
  induction ts with
  | nil => exact fun s h => h
  | cons t ts ih => exact fun s h => ih _ (perform_keeps_inv h t)

end Sys2Proof.Machine

/-! PROOFS. What an instruction can change (10_state.md): a fault entry, or the parts its row names; and that ST influences
nothing else. The statements on VF, I, the stack, the timers, the keys and the digit map follow from it. -/
namespace Sys2Proof.Machine

/-- Settles O16: a step answers one state, and `step_keeps_inv` says it meets the invariant. -/
theorem stepKeepsInvariant : Obligations.StepKeepsInvariant := by
  unfold Obligations.StepKeepsInvariant
  intro s t h ht
  have hinv := stepState_keeps_inv h
  rwa [stepState_of_next ht] at hinv

/-! ### Frames of the state updates -/

variable {s t u : State} {ps : List Part}

theorem Unchanged.refl (p : Part) (s : State) : Unchanged p s s := by
  cases p <;> simp [Unchanged]

theorem KeepsAllBut.refl (s : State) : KeepsAllBut [] s s := fun p _ => Unchanged.refl p s

/-- An update that changes no part but `q`, and maybe the pc, adds `q` to the parts changed so far. -/
theorem KeepsAllBut.cons {q : Part} (h : KeepsAllBut ps s t) (hu : ∀ p, p ≠ q → Unchanged p s t → Unchanged p s u) :
    KeepsAllBut (q :: ps) s u := by
  intro p hp
  exact hu p (List.ne_of_not_mem_cons hp) (h p (List.not_mem_of_not_mem_cons hp))

theorem KeepsAllBut.jump (h : KeepsAllBut ps s t) (w : Word) : KeepsAllBut ps s (t.jump w) := by
  intro p hp
  have hu := h p hp
  cases p <;> exact hu

theorem KeepsAllBut.advance (h : KeepsAllBut ps s t) : KeepsAllBut ps s t.advance := h.jump _

theorem KeepsAllBut.skipIf (h : KeepsAllBut ps s t) (c : Bool) : KeepsAllBut ps s (t.skipIf c) := by
  cases c with
  | false => exact h
  | true => exact h.jump _

theorem KeepsAllBut.setV (h : KeepsAllBut ps s t) (x : Reg) (b : Byte) : KeepsAllBut (.regs :: ps) s (t.setV x b) :=
  h.cons fun p hp hu => by
    cases p with
    | regs => exact absurd rfl hp
    | _ => exact hu

theorem KeepsAllBut.setVFlag (h : KeepsAllBut ps s t) (x : Reg) (b f : Byte) :
    KeepsAllBut (.regs :: ps) s (t.setVFlag x b f) :=
  h.cons fun p hp hu => by
    cases p with
    | regs => exact absurd rfl hp
    | _ => exact hu

theorem KeepsAllBut.setVBlock (h : KeepsAllBut ps s t) (bs : List Byte) :
    KeepsAllBut (.regs :: ps) s (t.setVBlock bs) :=
  h.cons fun p hp hu => by
    cases p with
    | regs => exact absurd rfl hp
    | _ => simpa [Unchanged] using hu

theorem KeepsAllBut.setI (h : KeepsAllBut ps s t) (w : Word) : KeepsAllBut (.index :: ps) s (t.setI w) :=
  h.cons fun p hp hu => by
    cases p with
    | index => exact absurd rfl hp
    | _ => exact hu

theorem KeepsAllBut.setDT (h : KeepsAllBut ps s t) (b : Byte) : KeepsAllBut (.delay :: ps) s (t.setDT b) :=
  h.cons fun p hp hu => by
    cases p with
    | delay => exact absurd rfl hp
    | _ => exact hu

theorem KeepsAllBut.setST (h : KeepsAllBut ps s t) (b : Byte) : KeepsAllBut (.sound :: ps) s (t.setST b) :=
  h.cons fun p hp hu => by
    cases p with
    | sound => exact absurd rfl hp
    | _ => exact hu

theorem KeepsAllBut.setMem (h : KeepsAllBut ps s t) (m : Memory) : KeepsAllBut (.memory :: ps) s (t.setMem m) :=
  h.cons fun p hp hu => by
    cases p with
    | memory => exact absurd rfl hp
    | _ => exact hu

theorem KeepsAllBut.setFb (h : KeepsAllBut ps s t) (f : Framebuffer) : KeepsAllBut (.display :: ps) s (t.setFb f) :=
  h.cons fun p hp hu => by
    cases p with
    | display => exact absurd rfl hp
    | _ => exact hu

theorem KeepsAllBut.halt (h : KeepsAllBut ps s t) : KeepsAllBut (.status :: ps) s t.halt :=
  h.cons fun p hp hu => by
    cases p with
    | status => exact absurd rfl hp
    | _ => exact hu

theorem KeepsAllBut.drawByte (h : KeepsAllBut ps s t) : KeepsAllBut (.draws :: ps) s t.drawByte.2 :=
  h.cons fun p hp hu => by
    cases p with
    | draws => exact absurd rfl hp
    | _ => exact hu

theorem KeepsAllBut.setStack (h : KeepsAllBut ps s t) (slots : Vector Word 16) :
    KeepsAllBut (.stack :: ps) s { t with stack := slots } :=
  h.cons fun p hp hu => by
    cases p with
    | stack => exact absurd rfl hp
    | _ => exact hu

theorem KeepsAllBut.setSp (h : KeepsAllBut ps s t) (n : Fin 17) : KeepsAllBut (.sp :: ps) s { t with sp := n } :=
  h.cons fun p hp hu => by
    cases p with
    | sp => exact absurd rfl hp
    | _ => exact hu

/-- Fault entry keeps every part but the status and the fault record (R285). -/
theorem keepsAllBut_raise (s : State) (kind : FaultKind) (info : Nat) :
    KeepsAllBut [.status, .faultRecord] s (s.raise kind info) := by
  intro p hp
  have hu := Unchanged.refl p s
  cases p with
  | status | faultRecord => simp at hp
  | _ => exact hu

/-! ### Frames of the instructions -/

/-- The parts of the state that an instruction may change when it raises no fault. -/
def partsWritten : Instr → List Part
  | .jp _ | .jpV0 _ | .seByte _ _ | .sneByte _ _ | .seReg _ _ | .sneReg _ _ | .skp _ | .sknp _ => []
  | .ldByte _ _ | .addByte _ _ | .ldReg _ _ | .orReg _ _ | .andReg _ _ | .xorReg _ _ => [.regs]
  | .addReg _ _ | .subReg _ _ | .shr _ | .subnReg _ _ | .shl _ => [.regs]
  | .ldFromDt _ | .ldKey _ | .loadRegs _ => [.regs]
  | .rnd _ _ => [.regs, .draws]
  | .ldI _ | .addI _ | .ldFont _ => [.index]
  | .ldDt _ => [.delay]
  | .ldSt _ => [.sound]
  | .ldBcd _ | .storeRegs _ => [.memory]
  | .cls => [.display]
  | .drw _ _ _ => [.regs, .display]
  | .ret => [.sp]
  | .call _ => [.sp, .stack]
  | .exit => [.status]

/-- `t` is a fault entry from `s`, or keeps every part outside the list (R285). -/
def FaultsOrKeepsAllBut (ps : List Part) (s t : State) : Prop :=
  (∃ kind info, t = s.raise kind info) ∨ KeepsAllBut ps s t

/-- An instruction answers one state. -/
theorem eq_of_exec_eq_next {i : Instr} {t' : State} (ht : exec i s = .next t') (h : exec i s = .next t) : t' = t :=
  Host.Outcome.next.inj (ht.symm.trans h)

/-- A store at I writes memory or faults (R190). -/
theorem storeAtI_frame (s : State) {bs : List Byte} (hbs : bs ≠ []) :
    ∃ t, storeAtI s bs = .next t ∧ FaultsOrKeepsAllBut [.memory] s t := by
  by_cases hle : s.i.toNat + bs.length ≤ 4096
  · obtain ⟨m, hm, -, -, -⟩ := storeAtI_of_le hle
    exact ⟨_, hm, .inr ((KeepsAllBut.refl s).advance.setMem m)⟩
  · exact ⟨_, storeAtI_of_gt hbs (Nat.not_le.mp hle), .inl ⟨_, _, rfl⟩⟩

/-- Every instruction faults, or changes no part outside its list. -/
theorem exec_frame (i : Instr) (s : State) : ∃ t, exec i s = .next t ∧ FaultsOrKeepsAllBut (partsWritten i) s t := by
  have hs : KeepsAllBut [] s s := .refl s
  have ha : KeepsAllBut [] s s.advance := hs.advance
  cases i with
  | cls => exact ⟨_, exec_cls s, .inr (ha.setFb _)⟩
  | ret =>
    obtain ⟨-, ht⟩ | ⟨j, -, ht⟩ := exec_ret_cases s
    · exact ⟨_, ht, .inl ⟨_, _, rfl⟩⟩
    · exact ⟨_, ht, .inr ((hs.jump s.stack[j.val]).setSp _)⟩
  | exit => exact ⟨_, exec_exit s, .inr ha.halt⟩
  | jp nnn => exact ⟨_, exec_jp s nnn, .inr (hs.jump _)⟩
  | call nnn =>
    obtain ⟨-, ht⟩ | ⟨hsp, ht⟩ := exec_call_cases s nnn
    · exact ⟨_, ht, .inl ⟨_, _, rfl⟩⟩
    · exact ⟨_, ht, .inr (((hs.jump (zext12 nnn)).setStack _).setSp _)⟩
  | seByte x kk => exact ⟨_, exec_seByte s x kk, .inr (ha.skipIf _)⟩
  | sneByte x kk => exact ⟨_, exec_sneByte s x kk, .inr (ha.skipIf _)⟩
  | seReg x y => exact ⟨_, exec_seReg s x y, .inr (ha.skipIf _)⟩
  | sneReg x y => exact ⟨_, exec_sneReg s x y, .inr (ha.skipIf _)⟩
  | ldByte x kk => exact ⟨_, exec_ldByte s x kk, .inr (ha.setV _ _)⟩
  | addByte x kk => exact ⟨_, exec_addByte s x kk, .inr (ha.setV _ _)⟩
  | ldReg x y => exact ⟨_, exec_ldReg s x y, .inr (ha.setV _ _)⟩
  | orReg x y => exact ⟨_, exec_orReg s x y, .inr (ha.setV _ _)⟩
  | andReg x y => exact ⟨_, exec_andReg s x y, .inr (ha.setV _ _)⟩
  | xorReg x y => exact ⟨_, exec_xorReg s x y, .inr (ha.setV _ _)⟩
  | addReg x y => exact ⟨_, exec_addReg s x y, .inr (ha.setVFlag _ _ _)⟩
  | subReg x y => exact ⟨_, exec_subReg s x y, .inr (ha.setVFlag _ _ _)⟩
  | shr x => exact ⟨_, exec_shr s x, .inr (ha.setVFlag _ _ _)⟩
  | subnReg x y => exact ⟨_, exec_subnReg s x y, .inr (ha.setVFlag _ _ _)⟩
  | shl x => exact ⟨_, exec_shl s x, .inr (ha.setVFlag _ _ _)⟩
  | ldI nnn => exact ⟨_, exec_ldI s nnn, .inr (ha.setI _)⟩
  | jpV0 nnn => exact ⟨_, exec_jpV0 s nnn, .inr (hs.jump _)⟩
  | rnd x kk => exact ⟨_, exec_rnd s x kk, .inr (hs.drawByte.advance.setV _ _)⟩
  | drw x y n =>
    obtain ⟨-, ht⟩ | ⟨-, b, -, ht⟩ := exec_drw_cases s x y n
    · exact ⟨_, ht, .inl ⟨_, _, rfl⟩⟩
    · exact ⟨_, ht, .inr ((ha.setFb _).setV _ _)⟩
  | skp x =>
    obtain ⟨-, ht⟩ | ⟨k, -, ht⟩ := exec_skp_cases s x
    · exact ⟨_, ht, .inl ⟨_, _, rfl⟩⟩
    · exact ⟨_, ht, .inr (ha.skipIf _)⟩
  | sknp x =>
    obtain ⟨-, ht⟩ | ⟨k, -, ht⟩ := exec_sknp_cases s x
    · exact ⟨_, ht, .inl ⟨_, _, rfl⟩⟩
    · exact ⟨_, ht, .inr (ha.skipIf _)⟩
  | ldFromDt x => exact ⟨_, exec_ldFromDt s x, .inr (ha.setV _ _)⟩
  | ldKey x =>
    obtain ⟨-, ht⟩ | ⟨k, -, ht⟩ := exec_ldKey_cases s x
    · exact ⟨_, ht, .inr fun p _ => .refl p s⟩
    · exact ⟨_, ht, .inr (ha.setV _ _)⟩
  | ldDt x => exact ⟨_, exec_ldDt s x, .inr (ha.setDT _)⟩
  | ldSt x => exact ⟨_, exec_ldSt s x, .inr (ha.setST _)⟩
  | addI x => exact ⟨_, exec_addI s x, .inr (ha.setI _)⟩
  | ldFont x =>
    obtain ⟨-, ht⟩ | ⟨d, w, -, -, ht⟩ := exec_ldFont_cases s x
    · exact ⟨_, ht, .inl ⟨_, _, rfl⟩⟩
    · exact ⟨_, ht, .inr (ha.setI _)⟩
  | ldBcd x => exact storeAtI_frame s (List.cons_ne_nil _ _)
  | storeRegs x => exact storeAtI_frame s (regsUpTo_ne_nil s x)
  | loadRegs x =>
    obtain ⟨-, ht⟩ | ⟨-, ht⟩ := exec_loadRegs_cases s x
    · exact ⟨_, ht, .inl ⟨_, _, rfl⟩⟩
    · exact ⟨_, ht, .inr (ha.setVBlock _)⟩

/-- An instruction keeps every part outside its list, but for the status and the fault record of its fault. -/
theorem exec_keeps {i : Instr} {p : Part} (h : exec i s = .next t) (hp : p ∉ [.status, .faultRecord])
    (hmem : p ∉ partsWritten i) : Unchanged p s t := by
  obtain ⟨t', ht, hframe⟩ := exec_frame i s
  obtain rfl := eq_of_exec_eq_next ht h
  obtain ⟨kind, info, rfl⟩ | hkeep := hframe
  · exact keepsAllBut_raise s kind info p hp
  · exact hkeep p hmem

/-- A part that an instruction changes, other than by its fault, is in its list. -/
theorem mem_partsWritten_of_changed {i : Instr} {p : Part} (h : exec i s = .next t) (hp : p ∉ [.status, .faultRecord])
    (hc : ¬ Unchanged p s t) : p ∈ partsWritten i :=
  by_contra fun hmem => hc (exec_keeps h hp hmem)

theorem stack_eq_of_unchanged (h : Unchanged .stack s t) : t.stack = s.stack :=
  Vector.ext fun j hj => h ⟨j, hj⟩

theorem keys_eq_of_unchanged (h : Unchanged .keys s t) : t.keys = s.keys :=
  Vector.ext fun j hj => h ⟨j, hj⟩

theorem fontLoc_eq_of_unchanged (h : Unchanged .fontMap s t) : t.fontLoc = s.fontLoc :=
  Vector.ext fun j hj => h ⟨j, hj⟩

/-! ### VF and I -/

/-- A register write changes no register but its destination. -/
theorem eq_of_getV_setV_ne {x r : Reg} {b : Byte} (h : (s.advance.setV x b).getV r ≠ s.getV r) : x = r := by
  by_contra hx
  exact h (by simp [Ne.symm hx])

/-- A block load of `V0..Vx` changes no register above `x` (R196). -/
theorem le_of_getV_setVBlock_ne {x r : Reg} {bs : List Byte} (hlen : bs.length = x.val + 1)
    (h : (s.advance.setVBlock bs).getV r ≠ s.getV r) : r ≤ x := by
  by_contra hx
  have hle : bs.length ≤ r.val := by
    rw [hlen]
    exact not_le.mp hx
  exact h (by simp [hle])

/-- Settles O47: the frame of `exec_frame` leaves the instructions that write a register, and of those without a flag the
register law of their one update says which register it is. -/
theorem onlyFlagInstructionsWriteVF : Obligations.OnlyFlagInstructionsWriteVF := by
  unfold Obligations.OnlyFlagInstructionsWriteVF
  intro i s t h hc
  have hmem : .regs ∈ partsWritten i := mem_partsWritten_of_changed h (by simp) fun hu => hc (hu _)
  cases i with
  | addReg | subReg | shr | subnReg | shl | drw => trivial
  | ldByte | addByte | ldReg | orReg | andReg | xorReg | rnd | ldFromDt =>
    obtain rfl := Host.Outcome.next.inj h
    exact eq_of_getV_setV_ne hc
  | ldKey x =>
    obtain ⟨-, ht⟩ | ⟨k, -, ht⟩ := exec_ldKey_cases s x
    · obtain rfl := eq_of_exec_eq_next ht h
      exact absurd rfl hc
    · obtain rfl := eq_of_exec_eq_next ht h
      exact eq_of_getV_setV_ne hc
  | loadRegs x =>
    obtain ⟨-, ht⟩ | ⟨-, ht⟩ := exec_loadRegs_cases s x
    · obtain rfl := eq_of_exec_eq_next ht h
      exact absurd rfl hc
    · obtain rfl := eq_of_exec_eq_next ht h
      exact le_antisymm (Fin.le_last x) (le_of_getV_setVBlock_ne (Memory.length_slice ..) hc)
  | _ => simp [partsWritten] at hmem

/-- Settles O48 by the frame of `exec_frame`. -/
theorem onlyIndexInstructionsWriteI : Obligations.OnlyIndexInstructionsWriteI := by
  unfold Obligations.OnlyIndexInstructionsWriteI
  intro i s t h hc
  have hmem : .index ∈ partsWritten i := mem_partsWritten_of_changed h (by simp) hc
  cases i with
  | ldI nnn => exact .inl ⟨nnn, rfl⟩
  | addI x => exact .inr (.inl ⟨x, rfl⟩)
  | ldFont x => exact .inr (.inr ⟨x, rfl⟩)
  | _ => simp [partsWritten] at hmem

/-! ### Stack, keys and digit map -/

theorem eq_call_of_stack_mem_partsWritten {i : Instr} (h : .stack ∈ partsWritten i) : ∃ nnn, i = .call nnn := by
  cases i with
  | call nnn => exact ⟨nnn, rfl⟩
  | _ => simp [partsWritten] at h

theorem eq_ret_or_call_of_sp_mem_partsWritten {i : Instr} (h : .sp ∈ partsWritten i) : i = .ret ∨ ∃ nnn, i = .call nnn := by
  cases i with
  | ret => exact .inl rfl
  | call nnn => exact .inr ⟨nnn, rfl⟩
  | _ => simp [partsWritten] at h

/-- Settles O49: the first two clauses by the frame of `exec_frame`, the faults by the cases of CALL and RET. -/
theorem stackDiscipline : Obligations.StackDiscipline := by
  unfold Obligations.StackDiscipline
  refine ⟨fun i s t h hc => ?_, fun i s t h hc => ?_, fun nnn s t hsp h => ?_, fun s t hsp h => ?_⟩
  · exact eq_call_of_stack_mem_partsWritten
      (mem_partsWritten_of_changed h (by simp) fun hu => hc (stack_eq_of_unchanged hu))
  · exact eq_ret_or_call_of_sp_mem_partsWritten (mem_partsWritten_of_changed h (by simp) hc)
  · obtain ⟨-, ht⟩ | ⟨hlt, -⟩ := exec_call_cases s nnn
    · obtain rfl := eq_of_exec_eq_next ht h
      exact ⟨rfl, rfl, rfl⟩
    · omega
  · obtain ⟨-, ht⟩ | ⟨j, hj, -⟩ := exec_ret_cases s
    · obtain rfl := eq_of_exec_eq_next ht h
      exact ⟨rfl, rfl, rfl⟩
    · omega

theorem keys_notMem_partsWritten (i : Instr) : .keys ∉ partsWritten i := by
  cases i <;> simp [partsWritten]

theorem fontMap_notMem_partsWritten (i : Instr) : .fontMap ∉ partsWritten i := by
  cases i <;> simp [partsWritten]

/-- Settles O51: neither part is in the list of any instruction. -/
theorem keysAndFontMapAreReadOnly : Obligations.KeysAndFontMapAreReadOnly := by
  unfold Obligations.KeysAndFontMapAreReadOnly
  intro i s t h
  exact ⟨keys_eq_of_unchanged (exec_keeps h (by simp) (keys_notMem_partsWritten i)),
    fontLoc_eq_of_unchanged (exec_keeps h (by simp) (fontMap_notMem_partsWritten i))⟩

/-! ### Timers -/

/-- An answer with its ST replaced. -/
def replaceST (b : Byte) : Result → Result
  | .next t => .next (t.setST b)
  | r       => r

theorem State.push_setST (s : State) (b : Byte) (w : Word) : (s.setST b).push w = (s.push w).map (·.setST b) := by
  obtain ⟨hsp, hp⟩ | ⟨hsp, hp⟩ := s.push_cases w <;> rw [hp]
  · exact State.push_of_full (s := s.setST b) w hsp
  · exact State.push_of_lt (s := s.setST b) w hsp

theorem State.pop_setST (s : State) (b : Byte) :
    (s.setST b).pop = s.pop.map fun r => (r.1, r.2.setST b) := by
  obtain ⟨hsp, hp⟩ | ⟨j, hj, hp⟩ := s.pop_cases <;> rw [hp]
  · exact State.pop_of_empty (s := s.setST b) hsp
  · exact State.pop_of_succ (s := s.setST b) j hj

theorem State.advance_skipIf_setST (s : State) (b : Byte) (c : Bool) :
    (s.setST b).advance.skipIf c = (s.advance.skipIf c).setST b := by
  cases c <;> rfl

theorem skipWhen_setST (s : State) (b : Byte) (c : Bool) : skipWhen (s.setST b) c = replaceST b (skipWhen s c) :=
  congrArg Host.Outcome.next (s.advance_skipIf_setST b c)

theorem skipOnKey_setST (s : State) (b : Byte) (x : Reg) (want : Bool) :
    skipOnKey (s.setST b) x want = replaceST b (skipOnKey s x want) := by
  have hkey : keyState (s.setST b) ((s.setST b).getV x) = keyState s (s.getV x) := rfl
  rw [skipOnKey, skipOnKey, hkey]
  cases keyState s (s.getV x) with
  | none => rfl
  | some pressed => exact congrArg Host.Outcome.next (s.advance_skipIf_setST b _)

theorem storeAtI_setST (s : State) (b : Byte) (bs : List Byte) :
    storeAtI (s.setST b) bs = replaceST b (storeAtI s bs) := by
  have hwrite : writeBlock (s.setST b).mem (effAddr (s.setST b) 0) bs = writeBlock s.mem (effAddr s 0) bs := rfl
  rw [storeAtI, storeAtI, hwrite]
  cases writeBlock s.mem (effAddr s 0) bs <;> rfl

/-- No instruction but LD ST reads or writes ST: from another ST it gives the same answer with that other ST (R28, R292). -/
theorem exec_setST {i : Instr} (s : State) (b : Byte) (hi : ∀ x, i ≠ .ldSt x) :
    exec i (s.setST b) = replaceST b (exec i s) := by
  cases i with
  | ldSt x => exact absurd rfl (hi x)
  | seByte | sneByte | seReg | sneReg => exact skipWhen_setST s b _
  | skp | sknp => exact skipOnKey_setST s b _ _
  | ldBcd | storeRegs => exact storeAtI_setST s b _
  | call nnn =>
    have hpush : (s.setST b).push (s.setST b).advance.pc = (s.push s.advance.pc).map (·.setST b) := s.push_setST b _
    simp only [exec, execCall, hpush]
    cases s.push s.advance.pc <;> rfl
  | ret =>
    simp only [exec, execRet, State.pop_setST]
    cases s.pop <;> rfl
  | drw x y n =>
    have hread : readBlock (s.setST b).mem (effAddr (s.setST b) 0) n.toNat = readBlock s.mem (effAddr s 0) n.toNat := rfl
    simp only [exec, execDrw, hread]
    cases readBlock s.mem (effAddr s 0) n.toNat <;> rfl
  | ldKey x =>
    have hkey : lowestKey (s.setST b) = lowestKey s := rfl
    simp only [exec, execLdKey, hkey]
    cases lowestKey s <;> rfl
  | ldFont x =>
    have hglyph : glyphOf (s.setST b) ((s.setST b).getV x) = glyphOf s (s.getV x) := rfl
    simp only [exec, execLdFont, hglyph]
    cases glyphOf s (s.getV x) <;> rfl
  | loadRegs x =>
    have hread : readBlock (s.setST b).mem (effAddr (s.setST b) 0) (x.val + 1) = readBlock s.mem (effAddr s 0) (x.val + 1) := rfl
    simp only [exec, execLoadRegs, hread]
    cases readBlock s.mem (effAddr s 0) (x.val + 1) <;> rfl
  | _ => rfl

/-- Settles O50: the writes by the frame of `exec_frame`, the last clause by `exec_setST`. -/
theorem timersOutsideTheInstructionLoop : Obligations.TimersOutsideTheInstructionLoop := by
  unfold Obligations.TimersOutsideTheInstructionLoop
  refine ⟨fun i s t h hc => ?_, fun i s t h hc => ?_, fun i s t b h => ?_⟩
  · have hmem : .delay ∈ partsWritten i := mem_partsWritten_of_changed h (by simp) hc
    cases i with
    | ldDt x =>
      obtain rfl := Host.Outcome.next.inj h
      exact ⟨x, rfl, rfl⟩
    | _ => simp [partsWritten] at hmem
  · have hmem : .sound ∈ partsWritten i := mem_partsWritten_of_changed h (by simp) hc
    cases i with
    | ldSt x =>
      obtain rfl := Host.Outcome.next.inj h
      exact ⟨x, rfl, rfl⟩
    | _ => simp [partsWritten] at hmem
  · by_cases hi : ∃ x, i = .ldSt x
    · obtain ⟨x, rfl⟩ := hi
      obtain rfl := Host.Outcome.next.inj h
      exact ⟨_, exec_ldSt _ x, rfl⟩
    · exact ⟨t.setST b, by rw [exec_setST s b (not_exists.mp hi), h, replaceST], rfl⟩

/-! ### Power-on (R36) -/

/-- Outside the font region Memory is zero at power-on (R58). -/
theorem powerOnByte_of_outside_font {a : Nat} (h : a < 0x050 ∨ 0x09F < a) : powerOnByte a = 0 := by
  obtain hlt | hgt := h
  · exact if_pos hlt
  · have hnotlt : ¬ a < 0x050 := by omega
    have hlen : fontBytes.length ≤ a - 0x050 := Nat.le_sub_of_add_le (show 80 + 0x050 ≤ a by omega)
    simp [powerOnByte, hnotlt, hlen]

/-- The font region holds the font (R63). -/
theorem powerOnByte_fontBase_add (k : Nat) : powerOnByte (0x050 + k) = fontBytes.getD k 0 := by
  simp [powerOnByte]

/-- Settles O19: the fields are those of `State.reset`, whose memory and framebuffer list nothing and so read as at power-on. -/
theorem powerOnState : Obligations.PowerOnState := by
  unfold Obligations.PowerOnState
  refine ⟨by decide, rfl, rfl, rfl, by decide, rfl, rfl, by decide, fun a ha => powerOnByte_of_outside_font ha,
    fun k _ => powerOnByte_fontBase_add k, Framebuffer.read_nil, fun d => ⟨_, getElem_standardFontLoc d, ?_⟩, rfl, rfl⟩
  have := d.isLt
  rw [BitVec.toNat_ofNat]
  omega

end Sys2Proof.Machine

/-! PROOFS. Memory (20_memory.md): only LD B and LD [I] write it; what a store leaves at each address, by the host's transactions and
by those two; and that the next fetch reads it. -/
namespace Sys2Proof.Machine

variable {s t : State} {m m' : Memory} {a b : Nat} {bs : List Byte}

/-! ### The instructions that write Memory (R51) -/

theorem eq_ldBcd_or_storeRegs_of_memory_mem_partsWritten {i : Instr} (h : .memory ∈ partsWritten i) :
    (∃ x, i = .ldBcd x) ∨ (∃ x, i = .storeRegs x) := by
  cases i with
  | ldBcd x => exact .inl ⟨x, rfl⟩
  | storeRegs x => exact .inr ⟨x, rfl⟩
  | _ => simp [partsWritten] at h

/-- Settles O52 by the frame of `exec_frame`. -/
theorem onlyStoresWriteMemory : Obligations.OnlyStoresWriteMemory := by
  unfold Obligations.OnlyStoresWriteMemory
  intro i s t a h hc
  exact eq_ldBcd_or_storeRegs_of_memory_mem_partsWritten (mem_partsWritten_of_changed h (by simp) fun hu => hc (hu a))

/-! ### What a store leaves at each address -/

theorem storedOver_of_outside (h : b < a ∨ a + bs.length ≤ b) : storedOver m a bs b = m.read b :=
  if_neg (by omega)

theorem storedOver_base_add {k : Nat} (h : k < bs.length) : storedOver m a bs (a + k) = bs.getD k 0 := by
  have hin : a ≤ a + k ∧ a + k < a + bs.length := by omega
  rw [storedOver, if_pos hin, Nat.add_sub_cancel_left]

/-- A memory that agrees with the old one outside the block and holds the bytes inside it reads as `storedOver` everywhere. -/
theorem read_eq_storedOver (hout : ∀ b, (b < a ∨ a + bs.length ≤ b) → m'.read b = m.read b)
    (hin : ∀ k, k < bs.length → m'.read (a + k) = bs.getD k 0) (b : Nat) : m'.read b = storedOver m a bs b := by
  by_cases hb : b < a ∨ a + bs.length ≤ b
  · rw [hout b hb, storedOver_of_outside hb]
  · obtain ⟨k, rfl⟩ := Nat.exists_eq_add_of_le (show a ≤ b by omega)
    have hk : k < bs.length := by omega
    rw [hin k hk, storedOver_base_add hk]

/-- A one-byte write is a block write of that byte. -/
theorem memWrite_eq_writeBlock (m : Memory) (a : Nat) (v : Byte) : memWrite m a v = writeBlock m a [v] := by
  rw [writeBlock]
  cases memWrite m a v <;> rfl

/-! ### The host's memory transactions (R60 to R62) -/

theorem perform_writeByte (s : State) (a : Nat) (v : Byte) :
    perform s (.writeByte a v) = hostWrite s (writeBlock s.mem a [v]) :=
  congrArg (hostWrite s) (memWrite_eq_writeBlock s.mem a v)

theorem perform_storeOpcode (s : State) (a : Nat) (op : Word) :
    perform s (.storeOpcode a op) = hostWrite s (writeBlock s.mem a [highByte op, lowByte op]) := rfl

theorem perform_loadRom_of_le (s : State) (h : bs.length ≤ 3584) :
    perform s (.loadRom bs) = hostWrite s (writeBlock s.mem 0x200 bs) :=
  if_pos (decide_eq_true h)

theorem perform_loadRom_of_gt (s : State) (h : 3584 < bs.length) :
    perform s (.loadRom bs) = (.failed .romLoadError bs.length, s) :=
  if_neg (by simp [romWellFormed, h])

theorem perform_readByte_of_lt (h : a < 4096) : perform s (.readByte a) = (.byte (s.mem.read a), s) := by
  simp [perform, hostByte, h]

theorem perform_readByte_of_ge (h : 4096 ≤ a) : perform s (.readByte a) = (.failed .addressOutOfBounds a, s) := by
  simp [perform, hostByte, h]

/-- A host write inside a canonical memory succeeds; the bytes are stored and nothing else changes. -/
theorem hostWrite_writeBlock_of_le (hw : Memory.wf s.mem = true) (h : a + bs.length ≤ 4096) :
    ∃ m, hostWrite s (writeBlock s.mem a bs) = (.done, s.setMem m) ∧ ∀ b, m.read b = storedOver s.mem a bs b := by
  obtain ⟨m, hm, -, hout, hin⟩ := writeBlock_of_le bs (m := s.mem) h
  exact ⟨m, by rw [hm, hostWrite], read_eq_storedOver hout (hin hw)⟩

/-- A host write that leaves Memory fails with the first address outside it and writes nothing (R62, R284). -/
theorem hostWrite_writeBlock_of_gt (s : State) (hbs : bs ≠ []) (h : 4096 < a + bs.length) :
    hostWrite s (writeBlock s.mem a bs) = (.failed .addressOutOfBounds (max a 4096), s) := by
  rw [writeBlock_of_gt hbs h, hostWrite]

theorem keepsAllBut_setMem (s : State) (m : Memory) : KeepsAllBut [.memory] s (s.setMem m) :=
  (KeepsAllBut.refl s).setMem m

/-- A stored opcode has its high byte at the lower address (R55), and no other byte changes. -/
theorem perform_storeOpcode_of_lt {op : Word} (hw : Memory.wf s.mem = true) (h : a + 1 < 4096) :
    ∃ m, perform s (.storeOpcode a op) = (.done, s.setMem m) ∧ m.read a = highByte op ∧ m.read (a + 1) = lowByte op ∧
      ∀ b, b ≠ a → b ≠ a + 1 → m.read b = s.mem.read b := by
  obtain ⟨m, hm, hread⟩ := hostWrite_writeBlock_of_le (a := a) (bs := [highByte op, lowByte op]) hw h
  refine ⟨m, hm, ?_, ?_, fun b h0 h1 => ?_⟩
  · exact (hread a).trans (storedOver_base_add (k := 0) (by simp))
  · exact (hread (a + 1)).trans (storedOver_base_add (k := 1) (by simp))
  · have hb : b < a ∨ a + 2 ≤ b := by omega
    exact (hread b).trans (storedOver_of_outside hb)

/-- Settles O6: the word read joins the two bytes, and a stored opcode's bytes are its high and low byte. -/
theorem opcodesAreBigEndian : Obligations.OpcodesAreBigEndian := by
  unfold Obligations.OpcodesAreBigEndian
  refine ⟨fun m a h => ⟨_, readWord_of_lt h, ?_⟩, fun s a op h hw => ?_⟩
  · rw [toNat_joinBytes, Nat.mul_comm]
  · obtain ⟨m, hm, hhigh, hlow, -⟩ := perform_storeOpcode_of_lt (op := op) hw h
    exact ⟨_, hm, (congrArg BitVec.toNat hhigh).trans (toNat_highByte op), (congrArg BitVec.toNat hlow).trans (toNat_lowByte op)⟩

/-- Settles O56: a ROM that fits is one block write at 0x200. -/
theorem loadRomWritesTheRom : Obligations.LoadRomWritesTheRom := by
  unfold Obligations.LoadRomWritesTheRom
  refine ⟨fun s bytes hw h => ?_, fun s bytes h => perform_loadRom_of_gt s h⟩
  obtain ⟨m, hm, hread⟩ := hostWrite_writeBlock_of_le (a := 0x200) (bs := bytes) hw (by omega)
  exact ⟨_, (perform_loadRom_of_le s h).trans hm, fun j hj => (hread _).trans (storedOver_base_add hj),
    fun b hb => (hread b).trans (storedOver_of_outside hb), rfl, keepsAllBut_setMem s m⟩

theorem perform_writeByte_of_lt {v : Byte} (hw : Memory.wf s.mem = true) (h : a < 4096) :
    ∃ m, perform s (.writeByte a v) = (.done, s.setMem m) ∧ m.read a = v ∧ ∀ b, b ≠ a → m.read b = s.mem.read b := by
  obtain ⟨m, hm, hread⟩ := hostWrite_writeBlock_of_le (a := a) (bs := [v]) hw h
  refine ⟨m, (perform_writeByte s a v).trans hm, ?_, fun b hb => ?_⟩
  · exact (hread a).trans (storedOver_base_add (k := 0) (by simp))
  · have hb : b < a ∨ a + 1 ≤ b := by omega
    exact (hread b).trans (storedOver_of_outside hb)

/-- Settles O57: each write is a block write of one or two bytes, inside Memory or not. -/
theorem hostMemoryAccess : Obligations.HostMemoryAccess := by
  unfold Obligations.HostMemoryAccess
  refine ⟨fun s a v hw h => ?_, fun s a v h => ⟨?_, perform_readByte_of_ge h⟩, fun s a op hw h => ?_, fun s a op h => ?_⟩
  · obtain ⟨m, hm, hself, hother⟩ := perform_writeByte_of_lt (v := v) hw h
    have hback : perform (s.setMem m) (.readByte a) = (.byte v, s.setMem m) := by
      rw [perform_readByte_of_lt h, State.setMem_mem, hself]
    exact ⟨_, hm, hback, hother, rfl, keepsAllBut_setMem s m⟩
  · have hgt : 4096 < a + [v].length := Nat.lt_succ_of_le h
    rw [perform_writeByte, hostWrite_writeBlock_of_gt s (List.cons_ne_nil _ _) hgt, Nat.max_eq_left h]
  · obtain ⟨m, hm, hhigh, hlow, hother⟩ := perform_storeOpcode_of_lt (op := op) hw h
    exact ⟨_, hm, hhigh, hlow, hother, rfl, keepsAllBut_setMem s m⟩
  · exact hostWrite_writeBlock_of_gt s (List.cons_ne_nil _ _) (Nat.lt_succ_of_le h)

/-! ### Reset and font (R59, R63) -/

/-- The memory of `MemoryReset` reads 0x00 everywhere: the zeros written cover the power-on font (R59). -/
theorem read_zeroMemory (a : Nat) : Memory.read zeroMemory a = 0x00 := by
  obtain ⟨m, hm, -, hout, hin⟩ :=
    writeBlock_of_le (List.replicate fontBytes.length 0x00) (m := []) (a := Config.fontBase) (by decide)
  rw [List.length_replicate] at hout hin
  rw [zeroMemory, hm]
  by_cases ha : a < 0x050 ∨ 0x09F < a
  · exact (hout a ha).trans (powerOnByte_of_outside_font ha)
  · obtain ⟨k, rfl⟩ := Nat.exists_eq_add_of_le (show 0x050 ≤ a by omega)
    have hk : k < fontBytes.length := show k < 80 by omega
    exact (hin rfl k hk).trans (List.getD_replicate _ hk)

/-- `LoadFont` is a block write of the font at 0x050, which always fits, and the standard digit map (R63). -/
theorem loadFont_spec (s : State) :
    ∃ m, loadFont s = { s.setMem m with fontLoc := standardFontLoc } ∧
      (∀ b, (b < 0x050 ∨ 0x09F < b) → m.read b = s.mem.read b) ∧
      (Memory.wf s.mem = true → ∀ k, k < 80 → m.read (0x050 + k) = fontBytes.getD k 0) := by
  obtain ⟨m, hm, -, hout, hin⟩ := writeBlock_of_le fontBytes (m := s.mem) (a := Config.fontBase) (by decide)
  exact ⟨m, by rw [loadFont, hm], hout, hin⟩

theorem KeepsAllBut.setFontLoc {ps : List Part} (h : KeepsAllBut ps s t) (f : Vector (Option Word) 16) :
    KeepsAllBut (.fontMap :: ps) s { t with fontLoc := f } :=
  h.cons fun p hp hu => by
    cases p with
    | fontMap => exact absurd rfl hp
    | _ => exact hu

/-- Settles O58 by what the zero memory reads and by the block write of `LoadFont`. -/
theorem memoryResetAndLoadFont : Obligations.MemoryResetAndLoadFont := by
  unfold Obligations.MemoryResetAndLoadFont
  refine ⟨fun s => ⟨_, rfl, fun a _ => read_zeroMemory a, rfl, keepsAllBut_setMem s _⟩, fun s => ⟨_, rfl, ?_⟩⟩
  obtain ⟨m, hm, hout, hin⟩ := loadFont_spec s
  rw [hm]
  refine ⟨hout, hin, fun d => ⟨_, getElem_standardFontLoc d, ?_⟩, rfl, ((KeepsAllBut.refl s).setFontLoc _).setMem m⟩
  have := d.isLt
  rw [BitVec.toNat_ofNat]
  omega

/-! ### The next fetch reads what was stored (R66) -/

/-- The next step of a machine whose memory is the stored bytes over the old ones runs what they spell at its pc. -/
theorem nextStepRunsStored_of_read (hread : ∀ b, t.mem.read b = storedOver s.mem a bs b) : NextStepRunsStored a bs s t := by
  intro i hr hp hd
  refine step_of_decoded hr ?_ hd
  rw [State.fetchedOpcode_eq, if_pos hp, hread, hread]

theorem nextStepRunsStored_hostWrite (hw : Memory.wf s.mem = true) (h : a + bs.length ≤ 4096) :
    NextStepRunsStored a bs s (hostWrite s (writeBlock s.mem a bs)).2 := by
  obtain ⟨m, hm, hread⟩ := hostWrite_writeBlock_of_le hw h
  rw [hm]
  exact nextStepRunsStored_of_read hread

/-- A store at I that fits is read by the next fetch; one that does not leaves the machine Faulted, so no step follows (R287). -/
theorem nextStepRunsStored_storeAtI (hw : Memory.wf s.mem = true) (hbs : bs ≠ []) (ht : storeAtI s bs = .next t) :
    NextStepRunsStored (effAddr s 0) bs s t := by
  by_cases hle : s.i.toNat + bs.length ≤ 4096
  · obtain ⟨m, hm, -, hout, hin⟩ := storeAtI_of_le hle
    obtain rfl := Host.Outcome.next.inj (hm.symm.trans ht)
    exact nextStepRunsStored_of_read (read_eq_storedOver hout (hin hw))
  · obtain rfl := Host.Outcome.next.inj ((storeAtI_of_gt hbs (Nat.not_le.mp hle)).symm.trans ht)
    intro i hr
    simp at hr

/-- Settles O14: each of the five stores is a block write by the host or at I. -/
theorem fetchSeesStores : Obligations.FetchSeesStores := by
  unfold Obligations.FetchSeesStores
  intro s hw
  refine ⟨fun a op h => ?_, fun a v h => ?_, fun bytes h => ?_, fun x t ht => ?_, fun x t ht => ?_⟩
  · rw [perform_storeOpcode]
    exact nextStepRunsStored_hostWrite hw h
  · rw [perform_writeByte]
    exact nextStepRunsStored_hostWrite hw h
  · rw [perform_loadRom_of_le s h]
    exact nextStepRunsStored_hostWrite hw (by omega)
  · exact nextStepRunsStored_storeAtI hw (regsUpTo_ne_nil s x) ht
  · exact nextStepRunsStored_storeAtI hw (List.cons_ne_nil _ _) ht

end Sys2Proof.Machine

/-! PROOFS. The encoding (30_encoding.md R81 to R89): the decoder reads a word as the one instruction whose row selects it, with the
word's fields as its operands; the encoder writes the word back but for the bits the registry ignores. -/
namespace Sys2Proof

open Laws

variable {op : Word} {i : Instr}

/-! ### A word and its fields (R81) -/

theorem encNNN_fields (op : Word) : encNNN (opFamily op) (opNNN op) = op := by
  apply BitVec.eq_of_toNat_eq
  rw [toNat_encNNN, toNat_opFamily, toNat_opNNN]
  omega

theorem encXKK_fields (op : Word) : encXKK (opFamily op) (opX op) (opKK op) = op := by
  apply BitVec.eq_of_toNat_eq
  rw [toNat_encXKK, toNat_opFamily, val_opX, toNat_opKK]
  omega

theorem encXYN_fields (op : Word) : encXYN (opFamily op) (opX op) (opY op) (opN op) = op := by
  apply BitVec.eq_of_toNat_eq
  rw [toNat_encXYN, toNat_opFamily, val_opX, val_opY, toNat_opN]
  omega

theorem and_family {t : Nibble} (hf : opFamily op = t) : op &&& 0xF000#16 = t ++ 0#12 := by
  rw [← hf, ← EncodeMeetsRow.encNNN_and _ (opNNN op), encNNN_fields]

theorem and_family_kk {t : Nibble} {kk : Byte} (hf : opFamily op = t) (hk : opKK op = kk) :
    op &&& 0xF0FF#16 = t ++ 0#4 ++ kk := by
  rw [← hf, ← hk, ← EncodeMeetsRow.encXKK_and_kk _ (opX op), encXKK_fields]

theorem and_family_n {t n : Nibble} (hf : opFamily op = t) (hn : opN op = n) :
    op &&& 0xF00F#16 = t ++ 0#4 ++ 0#4 ++ n := by
  rw [← hf, ← hn, ← EncodeMeetsRow.encXYN_and_n _ (opX op) (opY op), encXYN_fields]

theorem encXYN_and_family_x_y (t : Nibble) (x y : Reg) (n : Nibble) : encXYN t x y n &&& 0xFFF0#16 = encXYN t x y 0 := by
  rw [show (0xFFF0#16) = BitVec.allOnes 4 ++ BitVec.allOnes 4 ++ BitVec.allOnes 4 ++ 0#4 from rfl, encXYN, BitVec.and_append,
    BitVec.and_append, BitVec.and_append, BitVec.and_allOnes, BitVec.and_allOnes, BitVec.and_allOnes, BitVec.and_zero]
  rfl

theorem encXYN_and_family_x_n (t : Nibble) (x y : Reg) (n : Nibble) : encXYN t x y n &&& 0xFF0F#16 = encXYN t x 0 n := by
  rw [show (0xFF0F#16) = BitVec.allOnes 4 ++ BitVec.allOnes 4 ++ 0#4 ++ BitVec.allOnes 4 from rfl, encXYN, BitVec.and_append,
    BitVec.and_append, BitVec.and_append, BitVec.and_allOnes, BitVec.and_allOnes, BitVec.and_allOnes, BitVec.and_zero]
  rfl

/-! ### An instruction read from a word -/

/-- The instruction of the same row with the operands that stand in the fields of `op` (R81, R82). -/
def Instr.withFieldsOf (op : Word) : Instr → Instr
  | .cls           => .cls
  | .ret           => .ret
  | .exit          => .exit
  | .jp _          => .jp (opNNN op)
  | .call _        => .call (opNNN op)
  | .seByte _ _    => .seByte (opX op) (opKK op)
  | .sneByte _ _   => .sneByte (opX op) (opKK op)
  | .seReg _ _     => .seReg (opX op) (opY op)
  | .sneReg _ _    => .sneReg (opX op) (opY op)
  | .ldByte _ _    => .ldByte (opX op) (opKK op)
  | .addByte _ _   => .addByte (opX op) (opKK op)
  | .ldReg _ _     => .ldReg (opX op) (opY op)
  | .orReg _ _     => .orReg (opX op) (opY op)
  | .andReg _ _    => .andReg (opX op) (opY op)
  | .xorReg _ _    => .xorReg (opX op) (opY op)
  | .addReg _ _    => .addReg (opX op) (opY op)
  | .subReg _ _    => .subReg (opX op) (opY op)
  | .shr _         => .shr (opX op)
  | .subnReg _ _   => .subnReg (opX op) (opY op)
  | .shl _         => .shl (opX op)
  | .ldI _         => .ldI (opNNN op)
  | .jpV0 _        => .jpV0 (opNNN op)
  | .rnd _ _       => .rnd (opX op) (opKK op)
  | .drw _ _ _     => .drw (opX op) (opY op) (opN op)
  | .skp _         => .skp (opX op)
  | .sknp _        => .sknp (opX op)
  | .ldFromDt _    => .ldFromDt (opX op)
  | .ldKey _       => .ldKey (opX op)
  | .ldDt _        => .ldDt (opX op)
  | .ldSt _        => .ldSt (opX op)
  | .addI _        => .addI (opX op)
  | .ldFont _      => .ldFont (opX op)
  | .ldBcd _       => .ldBcd (opX op)
  | .storeRegs _   => .storeRegs (opX op)
  | .loadRegs _    => .loadRegs (opX op)

@[simp] theorem row_withFieldsOf (op : Word) (i : Instr) : (i.withFieldsOf op).row = i.row := by
  cases i <;> rfl

/-- `i` is of a row that selects `op`, and its operands are the fields of `op`. -/
def Instr.ReadFrom (i : Instr) (op : Word) : Prop := i.row.selects op = true ∧ i.withFieldsOf op = i

theorem selects_iff {r : OpcodeRow} : r.selects op = true ↔ op &&& r.mask = r.matchBits := beq_iff_eq

/-! ### The registry tree reads a word by its row (R83 to R88) -/

/-- A word that a row selects decodes to the row's instruction, with the operands of the word's fields. -/
theorem decodeWord_of_selects (i : Instr) (h : i.row.selects op = true) : decodeWord op = some (i.withFieldsOf op) := by
  have hm := selects_iff.mp h
  cases i <;> dsimp only [Instr.row] at hm
  all_goals have hf := opFamily_of_mask hm rfl
  case cls | ret | exit => simp [decodeWord, registry0, Instr.withFieldsOf, hf, opKK_of_mask hm rfl]
  case ldReg | orReg | andReg | xorReg | addReg | subReg | shr | subnReg | shl =>
    simp [decodeWord, registry8, Instr.withFieldsOf, hf, opN_of_mask hm rfl]
  case skp | sknp => simp [decodeWord, registryE, Instr.withFieldsOf, hf, opKK_of_mask hm rfl]
  case ldFromDt | ldKey | ldDt | ldSt | addI | ldFont | ldBcd | storeRegs | loadRegs =>
    simp [decodeWord, registryF, Instr.withFieldsOf, hf, opKK_of_mask hm rfl]
  all_goals simp [decodeWord, Instr.withFieldsOf, hf]

theorem readFrom_of_registry0 (hf : opFamily op = 0x0#4) (h : registry0 op = some i) : i.ReadFrom op := by
  unfold registry0 at h
  split at h <;> cases h
  all_goals
    rename_i hk
    exact ⟨selects_iff.mpr (and_family_kk hf hk), rfl⟩

theorem readFrom_of_registry8 (hf : opFamily op = 0x8#4) (h : registry8 op = some i) : i.ReadFrom op := by
  unfold registry8 at h
  split at h <;> cases h
  all_goals
    rename_i hn
    exact ⟨selects_iff.mpr (and_family_n hf hn), rfl⟩

theorem readFrom_of_registryE (hf : opFamily op = 0xE#4) (h : registryE op = some i) : i.ReadFrom op := by
  unfold registryE at h
  split at h <;> cases h
  all_goals
    rename_i hk
    exact ⟨selects_iff.mpr (and_family_kk hf hk), rfl⟩

theorem readFrom_of_registryF (hf : opFamily op = 0xF#4) (h : registryF op = some i) : i.ReadFrom op := by
  unfold registryF at h
  split at h <;> cases h
  all_goals
    rename_i hk
    exact ⟨selects_iff.mpr (and_family_kk hf hk), rfl⟩

/-- All that the top-level registry can do: hand the word to a nested registry, or read it by a leaf's row. -/
theorem decodeWord_cases (op : Word) :
    (opFamily op = 0x0#4 ∧ decodeWord op = registry0 op) ∨ (opFamily op = 0x8#4 ∧ decodeWord op = registry8 op) ∨
    (opFamily op = 0xE#4 ∧ decodeWord op = registryE op) ∨ (opFamily op = 0xF#4 ∧ decodeWord op = registryF op) ∨
    (∃ i, decodeWord op = some i ∧ i.ReadFrom op) := by
  unfold decodeWord
  split
  case h_1 hf => exact .inl ⟨hf, rfl⟩
  case h_9 hf => exact .inr (.inl ⟨hf, rfl⟩)
  case h_15 hf => exact .inr (.inr (.inl ⟨hf, rfl⟩))
  case h_16 =>
    have hf : opFamily op = 0xF#4 := by
      simp only [imp_false, ← BitVec.toNat_inj, BitVec.toNat_ofNat] at *
      omega
    exact .inr (.inr (.inr (.inl ⟨hf, rfl⟩)))
  all_goals
    rename_i hf
    exact .inr (.inr (.inr (.inr ⟨_, rfl, selects_iff.mpr (and_family hf), rfl⟩)))

theorem readFrom_of_decodeWord (h : decodeWord op = some i) : i.ReadFrom op := by
  obtain ⟨hf, hd⟩ | ⟨hf, hd⟩ | ⟨hf, hd⟩ | ⟨hf, hd⟩ | ⟨j, hd, hj⟩ := decodeWord_cases op
  · exact readFrom_of_registry0 hf (hd ▸ h)
  · exact readFrom_of_registry8 hf (hd ▸ h)
  · exact readFrom_of_registryE hf (hd ▸ h)
  · exact readFrom_of_registryF hf (hd ▸ h)
  · exact Option.some.inj (hd.symm.trans h) ▸ hj

theorem decodeWord_eq_some_iff : decodeWord op = some i ↔ i.ReadFrom op :=
  ⟨readFrom_of_decodeWord, fun h => (decodeWord_of_selects i h.1).trans (congrArg some h.2)⟩

/-! ### Encoding -/

/-- The lemmas of family EncodeMeetsRow in one. -/
theorem selects_encode : ∀ i : Instr, i.row.selects (encode i) = true
  | .cls           => EncodeMeetsRow.cls
  | .ret           => EncodeMeetsRow.ret
  | .exit          => EncodeMeetsRow.exit
  | .jp _          => EncodeMeetsRow.jp _
  | .call _        => EncodeMeetsRow.call _
  | .seByte _ _    => EncodeMeetsRow.seByte _ _
  | .sneByte _ _   => EncodeMeetsRow.sneByte _ _
  | .seReg _ _     => EncodeMeetsRow.seReg _ _
  | .sneReg _ _    => EncodeMeetsRow.sneReg _ _
  | .ldByte _ _    => EncodeMeetsRow.ldByte _ _
  | .addByte _ _   => EncodeMeetsRow.addByte _ _
  | .ldReg _ _     => EncodeMeetsRow.ldReg _ _
  | .orReg _ _     => EncodeMeetsRow.orReg _ _
  | .andReg _ _    => EncodeMeetsRow.andReg _ _
  | .xorReg _ _    => EncodeMeetsRow.xorReg _ _
  | .addReg _ _    => EncodeMeetsRow.addReg _ _
  | .subReg _ _    => EncodeMeetsRow.subReg _ _
  | .shr _         => EncodeMeetsRow.shr _
  | .subnReg _ _   => EncodeMeetsRow.subnReg _ _
  | .shl _         => EncodeMeetsRow.shl _
  | .ldI _         => EncodeMeetsRow.ldI _
  | .jpV0 _        => EncodeMeetsRow.jpV0 _
  | .rnd _ _       => EncodeMeetsRow.rnd _ _
  | .drw _ _ _     => EncodeMeetsRow.drw _ _ _
  | .skp _         => EncodeMeetsRow.skp _
  | .sknp _        => EncodeMeetsRow.sknp _
  | .ldFromDt _    => EncodeMeetsRow.ldFromDt _
  | .ldKey _       => EncodeMeetsRow.ldKey _
  | .ldDt _        => EncodeMeetsRow.ldDt _
  | .ldSt _        => EncodeMeetsRow.ldSt _
  | .addI _        => EncodeMeetsRow.addI _
  | .ldFont _      => EncodeMeetsRow.ldFont _
  | .ldBcd _       => EncodeMeetsRow.ldBcd _
  | .storeRegs _   => EncodeMeetsRow.storeRegs _
  | .loadRegs _    => EncodeMeetsRow.loadRegs _

/-- The fields of the encoded word are the operands. -/
theorem withFieldsOf_encode (i : Instr) : i.withFieldsOf (encode i) = i := by
  cases i <;> simp [Instr.withFieldsOf, encode]

theorem decodeWord_encode (i : Instr) : decodeWord (encode i) = some i :=
  decodeWord_eq_some_iff.mpr ⟨selects_encode i, withFieldsOf_encode i⟩

/-- The first two bytes decode as the word they join to. -/
theorem decode_eq_ok_iff {hi lo : Byte} {rest : List Byte} :
    decode (hi :: lo :: rest) = .ok (i, rest) ↔ decodeWord (joinBytes hi lo) = some i := by
  rw [decode]
  cases decodeWord (joinBytes hi lo) <;> simp

/-- Settles O1: the bytes join to the encoded word, which is one that the instruction's row selects and whose fields are its
operands. -/
theorem decodeOfEncodeIsIdentity : Obligations.DecodeOfEncodeIsIdentity := by
  unfold Obligations.DecodeOfEncodeIsIdentity
  intro i rest
  refine decode_eq_ok_iff.mpr ?_
  rw [joinBytes_high_low, decodeWord_encode]

/-! The three forms written from a word's own fields (R81), with the ignored bits written as 0. -/

section
variable {t n : Nibble} {kk : Byte} (hf : opFamily op = t)
include hf

theorem encNNN_of_fields : encNNN t (opNNN op) = op &&& 0xFFFF#16 := by
  rw [← hf, encNNN_fields]
  exact BitVec.and_allOnes.symm

theorem encXKK_of_fields (hk : opKK op = kk) : encXKK t (opX op) kk = op &&& 0xFFFF#16 := by
  rw [← hf, ← hk, encXKK_fields]
  exact BitVec.and_allOnes.symm

theorem encXYN_of_fields (hn : opN op = n) : encXYN t (opX op) (opY op) n = op &&& 0xFFFF#16 := by
  rw [← hf, ← hn, encXYN_fields]
  exact BitVec.and_allOnes.symm

theorem encXY0_of_fields : encXYN t (opX op) (opY op) 0 = op &&& 0xFFF0#16 := by
  rw [← hf, ← encXYN_and_family_x_y _ _ _ (opN op), encXYN_fields]

theorem encX0N_of_fields (hn : opN op = n) : encXYN t (opX op) 0 n = op &&& 0xFF0F#16 := by
  rw [← hf, ← hn, ← encXYN_and_family_x_n _ _ (opY op), encXYN_fields]

end

/-- Encoding an instruction read from a word gives the word without the bits that R87 calls ignored. -/
theorem encode_withFieldsOf (i : Instr) (h : i.row.selects op = true) :
    encode (i.withFieldsOf op) = op &&& i.examinedBits := by
  have hm := selects_iff.mp h
  cases i <;> dsimp only [Instr.row] at hm
  case cls | ret | exit => exact hm.symm
  all_goals have hf := opFamily_of_mask hm rfl
  case jp | call | ldI | jpV0 => exact encNNN_of_fields hf
  case seByte | sneByte | ldByte | addByte | rnd => exact encXKK_of_fields hf rfl
  case seReg | sneReg => exact encXY0_of_fields hf
  case drw => exact encXYN_of_fields hf rfl
  case shr | shl => exact encX0N_of_fields hf (opN_of_mask hm rfl)
  case ldReg | orReg | andReg | xorReg | addReg | subReg | subnReg => exact encXYN_of_fields hf (opN_of_mask hm rfl)
  all_goals exact encXKK_of_fields hf (opKK_of_mask hm rfl)

/-- Settles O2: the decoded instruction is of a row that selects the word and has the word's fields as its operands. -/
theorem encodeKeepsExaminedBits : Obligations.EncodeKeepsExaminedBits := by
  unfold Obligations.EncodeKeepsExaminedBits
  intro op i h
  obtain ⟨hsel, hfields⟩ := decodeWord_eq_some_iff.mp h
  rw [← encode_withFieldsOf i hsel, hfields]

theorem exists_row_eq_of_mem_opcodeTable {r : OpcodeRow} (h : r ∈ opcodeTable) : ∃ i : Instr, i.row = r := by
  obtain ⟨i, -, hi⟩ := List.mem_map.mp h
  exact ⟨i, hi⟩

/-- Settles O3: no second row selects a word, because the word decodes to one instruction. -/
theorem decodeFollowsOpcodeTable : Obligations.DecodeFollowsOpcodeTable := by
  unfold Obligations.DecodeFollowsOpcodeTable
  refine ⟨fun op i h => (decodeWord_eq_some_iff.mp h).1, fun op r hr hsel => ?_⟩
  obtain ⟨i, rfl⟩ := exists_row_eq_of_mem_opcodeTable hr
  refine ⟨_, decodeWord_of_selects i hsel, row_withFieldsOf op i, fun r' hr' hsel' => ?_⟩
  obtain ⟨j, rfl⟩ := exists_row_eq_of_mem_opcodeTable hr'
  have hij : i.withFieldsOf op = j.withFieldsOf op :=
    Option.some.inj ((decodeWord_of_selects i hsel).symm.trans (decodeWord_of_selects j hsel'))
  rw [← row_withFieldsOf op i, hij, row_withFieldsOf]

/-! ### The words with no handler (R89) -/

/-! In each nested registry an arm's index is in the list of its mapped ones, and the last arm's is not. -/

theorem registry0_eq_none_iff : registry0 op = none ↔ op.toNat % 0x100 ∉ [0xE0, 0xEE, 0xFD] := by
  rw [← toNat_opKK]
  unfold registry0
  split
  case h_4 => simp_all [← BitVec.toNat_inj]
  all_goals
    rename_i hk
    simp [hk]

theorem registry8_eq_none_iff : registry8 op = none ↔ op.toNat % 0x10 ∈ [0x8, 0x9, 0xA, 0xB, 0xC, 0xD, 0xF] := by
  rw [← toNat_opN]
  unfold registry8
  split
  case h_10 =>
    simp only [imp_false, ← BitVec.toNat_inj, BitVec.toNat_ofNat, List.mem_cons, List.not_mem_nil, or_false, true_iff] at *
    omega
  all_goals
    rename_i hn
    simp [hn]

theorem registryE_eq_none_iff : registryE op = none ↔ op.toNat % 0x100 ∉ [0x9E, 0xA1] := by
  rw [← toNat_opKK]
  unfold registryE
  split
  case h_3 => simp_all [← BitVec.toNat_inj]
  all_goals
    rename_i hk
    simp [hk]

theorem registryF_eq_none_iff :
    registryF op = none ↔ op.toNat % 0x100 ∉ [0x07, 0x0A, 0x15, 0x18, 0x1E, 0x29, 0x33, 0x55, 0x65] := by
  rw [← toNat_opKK]
  unfold registryF
  split
  case h_10 => simp_all [← BitVec.toNat_inj]
  all_goals
    rename_i hk
    simp [hk]

/-- Only the nested registries have a slot with no handler (R84, R88). -/
theorem decodeWord_eq_none_iff : decodeWord op = none ↔
    (opFamily op = 0x0#4 ∧ registry0 op = none) ∨ (opFamily op = 0x8#4 ∧ registry8 op = none) ∨
    (opFamily op = 0xE#4 ∧ registryE op = none) ∨ (opFamily op = 0xF#4 ∧ registryF op = none) := by
  constructor
  · intro h
    obtain ⟨hf, hd⟩ | ⟨hf, hd⟩ | ⟨hf, hd⟩ | ⟨hf, hd⟩ | ⟨i, hd, -⟩ := decodeWord_cases op
    · exact .inl ⟨hf, hd ▸ h⟩
    · exact .inr (.inl ⟨hf, hd ▸ h⟩)
    · exact .inr (.inr (.inl ⟨hf, hd ▸ h⟩))
    · exact .inr (.inr (.inr ⟨hf, hd ▸ h⟩))
    · cases hd.symm.trans h
  · rintro (⟨hf, h⟩ | ⟨hf, h⟩ | ⟨hf, h⟩ | ⟨hf, h⟩) <;> simp [decodeWord, hf, h]

theorem opFamily_eq_iff {t : Nibble} : opFamily op = t ↔ op.toNat / 0x1000 = t.toNat := by
  rw [← BitVec.toNat_inj, toNat_opFamily]

/-- Settles O4: each nested registry has no handler exactly for the words of its family that R89 lists. -/
theorem unmappedWordsAreTheListed : Obligations.UnmappedWordsAreTheListed := by
  unfold Obligations.UnmappedWordsAreTheListed
  intro op
  rw [decodeWord_eq_none_iff, registry0_eq_none_iff, registry8_eq_none_iff, registryE_eq_none_iff, registryF_eq_none_iff,
    opFamily_eq_iff, opFamily_eq_iff, opFamily_eq_iff, opFamily_eq_iff]
  rfl

/-- Settles O5: each word is a closed one, and the decoder computes. -/
theorem knownWordsDecode : Obligations.KnownWordsDecode := by
  unfold Obligations.KnownWordsDecode
  decide

end Sys2Proof

/-! PROOFS. What a step fetches and decodes (30_encoding.md R92, R93), what disassembly says of a word (R94), and what the host's
reads and inputs do (R91, R95). -/
namespace Sys2Proof.Machine

variable {s t : State}

/-! ### Disassembly (R94) -/

theorem disassemble_eq_map (op : Word) : disassemble op = (decodeWord op).map Instr.text := by
  rw [disassemble]
  cases decodeWord op <;> rfl

theorem perform_disassemble (s : State) (op : Word) :
    perform s (.disassemble op) = (.text ((decodeWord op).map Instr.text), s) := by
  rw [← disassemble_eq_map, perform]

/-- Settles O7: disassembly is the text of the decoded instruction; the two strings are computed. -/
theorem disassemblyIsPure : Obligations.DisassemblyIsPure := by
  unfold Obligations.DisassemblyIsPure
  intro s op
  refine ⟨fun i h => ?_, fun h => ?_, by decide, by decide⟩ <;> rw [perform_disassemble, h] <;> rfl

/-! ### The step (R92, R93) -/

/-- The opcode a fault records is the one the obligations name (R282). -/
theorem fetchedOpcode_eq_opcodeAtPc (s : State) : s.fetchedOpcode = opcodeAtPc s := State.fetchedOpcode_eq s

/-- Fault entry is the state of R285. -/
theorem raise_eq_faultedFrom (s : State) (kind : FaultKind) (info : Nat) : s.raise kind info = faultedFrom s kind info := by
  rw [State.raise, fetchedOpcode_eq_opcodeAtPc, faultedFrom]

/-- Settles O8: the two bytes decode as the word that the step fetches. -/
theorem stepRunsDecodedInstruction : Obligations.StepRunsDecodedInstruction := by
  unfold Obligations.StepRunsDecodedInstruction
  intro s i hr hp hd
  refine step_of_decoded hr ?_ (decode_eq_ok_iff.mp hd)
  rw [State.fetchedOpcode_eq, if_pos hp]

/-- Settles O9 by the two faults of `step_cases`, restated as the fault entry of R285. -/
theorem fetchAndDecodeFaults : Obligations.FetchAndDecodeFaults := by
  unfold Obligations.FetchAndDecodeFaults
  refine ⟨fun s hr hp => ?_, fun s op hr hop hd => ?_⟩
  · have hout : 4096 ≤ s.pc.toNat + 1 := Nat.succ_le_succ hp
    rw [← raise_eq_faultedFrom, ← fetchedOpcode_eq_opcodeAtPc]
    exact ⟨step_of_fetch_fault hr hout, State.fetchedOpcode_eq_none_iff.mpr hout⟩
  · rw [← fetchedOpcode_eq_opcodeAtPc] at hop
    rw [← raise_eq_faultedFrom]
    exact step_of_unmapped hr hop hd

/-- Settles O10: neither status is Running. -/
theorem haltedMachineStaysPut : Obligations.HaltedMachineStaysPut := by
  unfold Obligations.HaltedMachineStaysPut
  intro s
  refine ⟨fun h => ⟨step_of_not_running (by simp [h]), ?_⟩, fun h => ⟨step_of_not_running (by simp [h]), ?_⟩⟩ <;>
    rw [stepResult, h]

/-! ### The host's reads and inputs (R91, R95, R228, R250, R296) -/

theorem perform_opcodeAt_of_lt {a : Nat} (h : a + 1 < 4096) :
    perform s (.opcodeAt a) = (.opcode (joinBytes (s.mem.read a) (s.mem.read (a + 1))), s) := by
  rw [perform, hostWord, readWord_of_lt h]

theorem perform_opcodeAt_of_ge {a : Nat} (h : 4096 ≤ a + 1) :
    perform s (.opcodeAt a) = (.failed .addressOutOfBounds (max a 4096), s) := by
  rw [perform, hostWord, readWord_of_ge h]

theorem perform_disassembleAt_of_lt {a : Nat} (h : a + 1 < 4096) :
    perform s (.disassembleAt a) = (.text (disassemble (joinBytes (s.mem.read a) (s.mem.read (a + 1)))), s) := by
  rw [perform, disassembleAt, readWord_of_lt h]

theorem perform_disassembleAt_of_ge {a : Nat} (h : 4096 ≤ a + 1) : perform s (.disassembleAt a) = (.text none, s) := by
  rw [perform, disassembleAt, readWord_of_ge h]

theorem length_readFramebuffer (s : State) : (readFramebuffer s).length = 2048 := by
  simp [readFramebuffer]

theorem getD_readFramebuffer {idx : Nat} (h : idx < 2048) : (readFramebuffer s).getD idx 0 = s.fb.read idx := by
  simp [readFramebuffer, h]

theorem KeepsAllBut.setKeys {ps : List Part} (h : KeepsAllBut ps s t) (k : Vector Bool 16) :
    KeepsAllBut (.keys :: ps) s (setKeys t k) :=
  h.cons fun p hp hu => by
    cases p with
    | keys => exact absurd rfl hp
    | _ => exact hu

/-- Two coordinate pairs name one cell exactly when they agree modulo the screen (R220). -/
theorem cellIndex_eq_iff {x y x' y' : Nat} : cellIndex x' y' = cellIndex x y ↔ x' % 64 = x % 64 ∧ y' % 32 = y % 32 := by
  simp only [cellIndex, Config.screenW, Config.screenH]
  omega

/-- What a pixel written by the host leaves at each coordinate pair (R228). -/
theorem getPixel_setPixel (hw : Framebuffer.wf s.fb = true) (x y x' y' : Nat) (b : Byte) :
    getPixel (setPixel s x y b) x' y' = if x' % 64 = x % 64 ∧ y' % 32 = y % 32 then b else getPixel s x' y' := by
  rw [getPixel, setPixel, State.setFb_fb]
  split
  next h => rw [cellIndex_eq_iff.mpr h, Framebuffer.read_write_self _ b hw]
  next h => rw [Framebuffer.read_write_of_ne _ b (mt cellIndex_eq_iff.mp h), getPixel]

/-- Settles O60: one law per read or input. -/
theorem readsAndInputs : Obligations.ReadsAndInputs := by
  unfold Obligations.ReadsAndInputs
  refine ⟨fun s a h => ⟨perform_opcodeAt_of_lt h, perform_disassembleAt_of_lt h⟩,
    fun s a h => ⟨perform_opcodeAt_of_ge h, perform_disassembleAt_of_ge h⟩, fun s => rfl,
    fun s a h => perform_readByte_of_lt h, fun s x y => rfl,
    fun s => ⟨_, rfl, length_readFramebuffer s, fun idx h => getD_readFramebuffer h⟩,
    fun s => ⟨readState s, rfl, rfl, rfl, rfl, rfl, rfl, rfl, rfl, rfl, rfl⟩,
    fun s k => ⟨_, rfl, fun j => rfl, rfl, (KeepsAllBut.refl s).setKeys k⟩,
    fun s x y b hw => ⟨_, rfl, fun x' y' => ?_, rfl, (KeepsAllBut.refl s).setFb _⟩⟩
  exact congrArg (fun c => (Reply.byte c, setPixel s x y b)) (getPixel_setPixel hw x y x' y' b)

end Sys2Proof.Machine

/-! PROOFS. Control flow (41_control_flow.md): jumps, CALL and RET, EXIT, and the skips on a byte or a register. -/
namespace Sys2Proof.Machine

variable {s : State} {nnn : Addr12}

/-- The words that the row of `i` selects decode to the row's instruction, with the operands of the word's fields (R86). -/
theorem decodesAs_row (i : Instr) : DecodesAs i.row.matchBits i.row.mask fun op => i.withFieldsOf op :=
  fun _ h => decodeWord_of_selects i (selects_iff.mpr h)

/-! ### The stack (R121, R124) -/

/-- A CALL with room on the stack: slot SP gets the next instruction's address. -/
theorem exec_call_of_lt (h : s.sp.val < 16) : exec (.call nnn) s =
    .next { s with stack := s.stack.set s.sp.val (s.pc + 2#16), sp := ⟨s.sp.val + 1, Nat.succ_lt_succ h⟩, pc := zext12 nnn } := by
  obtain ⟨hfull, -⟩ | ⟨_, ht⟩ := exec_call_cases s nnn
  · omega
  · exact ht

theorem exec_call_of_full (h : s.sp.val = 16) : exec (.call nnn) s = .next (faultedFrom s .stackOverflow 16) := by
  obtain ⟨-, ht⟩ | ⟨hlt, -⟩ := exec_call_cases s nnn
  · rw [ht, raise_eq_faultedFrom, h]
  · omega

/-- A RET with an occupied slot j below SP goes to the address the slot holds. -/
theorem exec_ret_of_succ (j : Fin 16) (h : s.sp.val = j.val + 1) :
    exec .ret s = .next { s with sp := ⟨j.val, by omega⟩, pc := s.stack[j.val] } := by
  obtain ⟨hempty, -⟩ | ⟨k, hk, ht⟩ := exec_ret_cases s
  · omega
  · obtain rfl : k = j := Fin.ext (by omega)
    exact ht

theorem exec_ret_of_empty (h : s.sp.val = 0) : exec .ret s = .next (faultedFrom s .stackUnderflow 0) := by
  obtain ⟨-, ht⟩ | ⟨j, hj, -⟩ := exec_ret_cases s
  · rw [ht, raise_eq_faultedFrom, h]
  · omega

/-- Settles O31: the slot that CALL wrote is the one RET reads. -/
theorem returnUndoesCall : Obligations.ReturnUndoesCall := by
  unfold Obligations.ReturnUndoesCall
  intro nnn s t u hlt ht hsp hstack
  obtain rfl := eq_of_exec_eq_next (exec_call_of_lt hlt) ht
  have hslot : u.stack[s.sp.val] = s.pc + 2 := by simp [hstack]
  exact ⟨_, exec_ret_of_succ ⟨s.sp.val, hlt⟩ (congrArg Fin.val hsp), hslot, rfl⟩

/-! ### Jumps (R123, R129) -/

@[simp] theorem toNat_zext12 (nnn : Addr12) : (zext12 nnn).toNat = nnn.toNat :=
  BitVec.toNat_setWidth_of_le (by decide)

@[simp] theorem toNat_zext8 (b : Byte) : (zext8 b).toNat = b.toNat :=
  BitVec.toNat_setWidth_of_le (by decide)

/-- The sum of a byte and a 12-bit address fits in 16 bits (R129). -/
theorem toNat_zext8_add_zext12 (b : Byte) (nnn : Addr12) : (zext8 b + zext12 nnn).toNat = b.toNat + nnn.toNat := by
  have := b.isLt
  have := nnn.isLt
  rw [BitVec.toNat_add, toNat_zext8, toNat_zext12]
  omega

theorem keepsAllBut_jump (s : State) (w : Word) : KeepsAllBut [] s (s.jump w) := (KeepsAllBut.refl s).jump w

/-- A jump to its own address leaves the state as it was (R123). -/
theorem exec_jp_self (h : s.pc.toNat = nnn.toNat) : exec (.jp nnn) s = .next s := by
  have hpc : zext12 nnn = s.pc := BitVec.eq_of_toNat_eq ((toNat_zext12 nnn).trans h.symm)
  rw [exec_jp, hpc]
  rfl

/-- A fetch at 0xFFF faults on the opcode's second byte (R92). -/
theorem step_jump_0xFFF (hr : s.status = .running) :
    step (s.jump 0xFFF) = .next (faultedFrom (s.jump 0xFFF) .addressOutOfBounds 4096) := by
  rw [← raise_eq_faultedFrom]
  exact step_of_fetch_fault (s := s.jump 0xFFF) hr (by simp)

/-- Settles O27 by the equation of JP; the fetch after a jump to 0xFFF leaves Memory. -/
theorem jumpSetsPc : Obligations.JumpSetsPc := by
  unfold Obligations.JumpSetsPc
  exact ⟨decodesAs_row (.jp 0), fun nnn s => ⟨_, exec_jp s nnn, toNat_zext12 nnn, keepsAllBut_jump s _⟩,
    fun nnn s h => exec_jp_self h, fun s hr => ⟨_, exec_jp s 0xFFF, step_jump_0xFFF hr⟩, by decide⟩

/-- Settles O28: the sum does not wrap. -/
theorem jumpPlusV0SetsPc : Obligations.JumpPlusV0SetsPc := by
  unfold Obligations.JumpPlusV0SetsPc
  exact ⟨decodesAs_row (.jpV0 0),
    fun nnn s => ⟨_, exec_jpV0 s nnn, toNat_zext8_add_zext12 _ nnn, keepsAllBut_jump s _⟩⟩

/-! ### CALL, RET and EXIT -/

/-- Settles O29 by the two cases of CALL. -/
theorem callPushesAndJumps : Obligations.CallPushesAndJumps := by
  unfold Obligations.CallPushesAndJumps
  refine ⟨decodesAs_row (.call 0), fun nnn s h => ⟨_, exec_call_of_lt h, toNat_zext12 nnn, rfl, fun j => ?_, ?_⟩,
    fun nnn s h => exec_call_of_full h⟩
  · exact (Vector.getElem_set h _).trans (if_congr eq_comm rfl rfl)
  · exact ((keepsAllBut_jump s (zext12 nnn)).setStack _).setSp _

/-- Settles O30 by the two cases of RET. -/
theorem returnPopsAddress : Obligations.ReturnPopsAddress := by
  unfold Obligations.ReturnPopsAddress
  exact ⟨decodesAs_row .ret,
    fun s j h => ⟨_, exec_ret_of_succ j h, rfl, rfl, (keepsAllBut_jump s s.stack[j.val]).setSp _⟩,
    fun s h => exec_ret_of_empty h⟩

/-- Settles O32 by the equation of EXIT. -/
theorem exitHaltsMachine : Obligations.ExitHaltsMachine := by
  unfold Obligations.ExitHaltsMachine
  exact ⟨decodesAs_row .exit, fun s => ⟨_, exec_exit s, rfl, rfl, (KeepsAllBut.refl s).advance.halt⟩⟩

/-! ### Skips (R125 to R128) -/

/-- A skip moves pc by 4 when taken and by 2 otherwise, and changes nothing else (R120). -/
theorem onlyMovesPc_advance_skipIf (s : State) (c : Bool) :
    OnlyMovesPc (if c then s.pc + 4 else s.pc + 2) s (s.advance.skipIf c) := by
  refine ⟨?_, (KeepsAllBut.refl s).advance.skipIf c⟩
  cases c with
  | false => rfl
  | true => exact BitVec.add_assoc s.pc 2 2

/-- A skip when two bytes are equal. -/
theorem onlyMovesPc_skip_of_eq (s : State) (a b : Byte) :
    OnlyMovesPc (if a = b then s.pc + 4 else s.pc + 2) s (s.advance.skipIf (a == b)) := by
  simpa using onlyMovesPc_advance_skipIf s (a == b)

/-- A skip when two bytes differ. -/
theorem onlyMovesPc_skip_of_ne (s : State) (a b : Byte) :
    OnlyMovesPc (if a = b then s.pc + 2 else s.pc + 4) s (s.advance.skipIf (a != b)) := by
  simpa using onlyMovesPc_advance_skipIf s (a != b)

/-- Settles O33: Vx is compared with kk. -/
theorem skipsOnByte : Obligations.SkipsOnByte := by
  unfold Obligations.SkipsOnByte
  exact ⟨decodesAs_row (.seByte 0 0), decodesAs_row (.sneByte 0 0),
    fun x kk s => ⟨_, exec_seByte s x kk, onlyMovesPc_skip_of_eq s _ _⟩,
    fun x kk s => ⟨_, exec_sneByte s x kk, onlyMovesPc_skip_of_ne s _ _⟩⟩

/-- Settles O34: Vx is compared with Vy; no row of the two examines the low nibble. -/
theorem skipsOnRegister : Obligations.SkipsOnRegister := by
  unfold Obligations.SkipsOnRegister
  exact ⟨decodesAs_row (.seReg 0 0), decodesAs_row (.sneReg 0 0),
    fun x y s => ⟨_, exec_seReg s x y, onlyMovesPc_skip_of_eq s _ _⟩,
    fun x y s => ⟨_, exec_sneReg s x y, onlyMovesPc_skip_of_ne s _ _⟩⟩

end Sys2Proof.Machine

/-! PROOFS. Register loads and arithmetic/logic (42_alu.md): one rule for an instruction without a flag, one for an instruction
with a flag, and the values of the results on naturals or bit by bit. -/
namespace Sys2Proof.Machine

variable (s : State) (x : Reg) (a b flag : Byte)

/-! ### The two forms of an ALU instruction (R150) -/

/-- An instruction without a flag writes its destination alone. -/
theorem writesReg_advance_setV : WritesReg x b s (s.advance.setV x b) := by
  refine ⟨by simp, fun r hr => ?_, rfl, (KeepsAllBut.refl s).advance.setV x b⟩
  simp [hr]

/-- An instruction with a flag writes its destination and then VF, so VF ends as the flag when it is the destination. -/
theorem writesRegAndFlag_advance_setVFlag : WritesRegAndFlag x b flag s (s.advance.setVFlag x b flag) := by
  refine ⟨by simp, fun hx => ?_, fun r hx hf => ?_, rfl, (KeepsAllBut.refl s).advance.setVFlag x b flag⟩
  · simp [hx]
  · simp [hx, hf]

/-! ### Results on naturals -/

theorem byte_add_eq_ofNat : a + b = BitVec.ofNat 8 ((a.toNat + b.toNat) % 256) :=
  BitVec.eq_of_toNat_eq (by simp)

/-- The difference modulo 256, with the borrow added before the subtraction (R158, R160). -/
theorem toNat_byte_sub : (a - b).toNat = (a.toNat + 256 - b.toNat) % 256 := by
  have hb := b.isLt
  rw [BitVec.toNat_sub]
  omega

theorem toNat_byte_shiftRight_one : (a >>> 1).toNat = a.toNat / 2 := by
  simp [Nat.shiftRight_eq_div_pow]

theorem toNat_byte_shiftLeft_one : (a <<< 1).toNat = 2 * a.toNat % 256 := by
  simp [Nat.shiftLeft_eq, Nat.mul_comm]

/-! ### The obligations -/

/-- Settles O20: neither instruction has a flag. -/
theorem byteLoadAndByteAdd : Obligations.ByteLoadAndByteAdd := by
  unfold Obligations.ByteLoadAndByteAdd
  refine ⟨decodesAs_row (.ldByte 0 0), decodesAs_row (.addByte 0 0),
    fun x kk s => ⟨_, exec_ldByte s x kk, writesReg_advance_setV s x kk⟩, fun x kk s => ⟨_, exec_addByte s x kk, ?_⟩⟩
  rw [byte_add_eq_ofNat]
  exact writesReg_advance_setV s x _

/-- Settles O21: the results are the bit operations of Lean, read at each bit. -/
theorem registerCopyAndAndXor : Obligations.RegisterCopyAndAndXor := by
  unfold Obligations.RegisterCopyAndAndXor
  exact ⟨decodesAs_row (.ldReg 0 0), decodesAs_row (.andReg 0 0), decodesAs_row (.xorReg 0 0),
    fun x y s => ⟨_, exec_ldReg s x y, writesReg_advance_setV s x _⟩,
    fun x y s => ⟨_, _, exec_andReg s x y, writesReg_advance_setV s x _, fun _ _ => BitVec.getLsbD_and⟩,
    fun x y s => ⟨_, _, exec_xorReg s x y, writesReg_advance_setV s x _, fun _ _ => BitVec.getLsbD_xor⟩⟩

/-- Settles O22: the rule without a flag keeps VF with every other register. -/
theorem registerOrWithoutFlag : Obligations.RegisterOrWithoutFlag := by
  unfold Obligations.RegisterOrWithoutFlag
  exact ⟨decodesAs_row (.orReg 0 0),
    fun x y s => ⟨_, _, exec_orReg s x y, writesReg_advance_setV s x _, fun _ _ => BitVec.getLsbD_or⟩⟩

/-- Settles O23 by the rule with a flag. -/
theorem registerAddWithCarry : Obligations.RegisterAddWithCarry := by
  unfold Obligations.RegisterAddWithCarry
  exact ⟨decodesAs_row (.addReg 0 0), fun x y s => ⟨_, _, _, exec_addReg s x y,
    writesRegAndFlag_advance_setVFlag s x _ _, BitVec.toNat_add _ _, toNat_carryFlag _ _⟩⟩

/-- Settles O24: the two subtractions differ in which operand is the minuend. -/
theorem subtractionsWithNoBorrowFlag : Obligations.SubtractionsWithNoBorrowFlag := by
  unfold Obligations.SubtractionsWithNoBorrowFlag
  exact ⟨decodesAs_row (.subReg 0 0), decodesAs_row (.subnReg 0 0),
    fun x y s => ⟨_, _, _, exec_subReg s x y,
      writesRegAndFlag_advance_setVFlag s x _ _, toNat_byte_sub _ _, toNat_noBorrowFlag _ _⟩,
    fun x y s => ⟨_, _, _, exec_subnReg s x y,
      writesRegAndFlag_advance_setVFlag s x _ _, toNat_byte_sub _ _, toNat_noBorrowFlag _ _⟩⟩

/-- Settles O25: the row examines no bit of y, and the bit shifted out is the remainder or the quotient. -/
theorem shiftsByOne : Obligations.ShiftsByOne := by
  unfold Obligations.ShiftsByOne
  exact ⟨decodesAs_row (.shr 0), decodesAs_row (.shl 0),
    fun x s => ⟨_, _, _, exec_shr s x,
      writesRegAndFlag_advance_setVFlag s x _ _, toNat_byte_shiftRight_one _, toNat_shrFlag _⟩,
    fun x s => ⟨_, _, _, exec_shl s x,
      writesRegAndFlag_advance_setVFlag s x _ _, toNat_byte_shiftLeft_one _, toNat_shlFlag _⟩⟩

/-- Settles O26: the draw changes the counter alone, and the rule without a flag speaks of the state that has drawn. -/
theorem randomByteMasked : Obligations.RandomByteMasked := by
  unfold Obligations.RandomByteMasked
  refine ⟨decodesAs_row (.rnd 0 0), fun x kk s => ?_⟩
  obtain ⟨hdest, hothers, hpc, -⟩ := writesReg_advance_setV s.drawByte.2 x (Config.rnd s.draws &&& kk)
  exact ⟨_, _, exec_rnd s x kk, hdest, fun _ _ => BitVec.getLsbD_and, hothers, hpc, rfl,
    (KeepsAllBut.refl s).drawByte.advance.setV x _⟩

end Sys2Proof.Machine

/-! PROOFS. Index register and memory (43_index_memory.md): the instructions that set I, one rule for a store at I and one for its
fault, and the block load. -/
namespace Sys2Proof.Machine

variable {s : State} {x : Reg} {bs : List Byte}

/-! ### Setting I (R191 to R193) -/

theorem keepsAllBut_advance_setI (s : State) (w : Word) : KeepsAllBut [.index] s (s.advance.setI w) :=
  (KeepsAllBut.refl s).advance.setI w

/-- The sum wraps at 2^16 (R192). -/
theorem toNat_add_zext8 (w : Word) (b : Byte) : (w + zext8 b).toNat = (w.toNat + b.toNat) % 65536 := by
  rw [BitVec.toNat_add, toNat_zext8]

/-- A digit with an entry (R193). -/
theorem exec_ldFont_of_eq (d : Fin 16) {w : Word} (hd : (s.getV x).toNat = d.val) (hw : s.fontLoc[d.val] = some w) :
    exec (.ldFont x) s = .next (s.advance.setI w) := by
  obtain ⟨hnone, -⟩ | ⟨d', w', hd', hw', ht⟩ := exec_ldFont_cases s x
  · simp [glyphOf_of_eq d hd, hw] at hnone
  · obtain rfl : d' = d := Fin.ext (hd'.symm.trans hd)
    obtain rfl : w' = w := Option.some.inj (hw'.symm.trans hw)
    exact ht

/-- No entry for the value, be it a digit or not (R193). -/
theorem exec_ldFont_of_raises (h : Raises (.ldFont x) s) :
    exec (.ldFont x) s = .next (faultedFrom s .indexOutOfBounds (s.getV x).toNat) := by
  obtain ⟨-, ht⟩ | ⟨d, w, hd, hw, -⟩ := exec_ldFont_cases s x
  · rw [ht, raise_eq_faultedFrom]
  · exact absurd (hw.symm.trans (h d hd.symm)) (by simp)

/-- Settles O35: the zero-extended address is the address. -/
theorem indexLoad : Obligations.IndexLoad := by
  unfold Obligations.IndexLoad
  exact ⟨decodesAs_row (.ldI 0), fun nnn s => ⟨_, exec_ldI s nnn, toNat_zext12 nnn, rfl, keepsAllBut_advance_setI s _⟩,
    by decide⟩

/-- Settles O36: the frame keeps every register, so VF too. -/
theorem indexAdd : Obligations.IndexAdd := by
  unfold Obligations.IndexAdd
  exact ⟨decodesAs_row (.addI 0),
    fun x s => ⟨_, exec_addI s x, toNat_add_zext8 _ _, rfl, keepsAllBut_advance_setI s _⟩⟩

/-- Settles O37 by the two cases of LD F. -/
theorem fontLookup : Obligations.FontLookup := by
  unfold Obligations.FontLookup
  exact ⟨decodesAs_row (.ldFont 0),
    fun x s d w hd hw => ⟨_, exec_ldFont_of_eq d hd hw, rfl, rfl, keepsAllBut_advance_setI s w⟩,
    fun x s h => exec_ldFont_of_raises h⟩

/-! ### Stores at I (R194, R195) -/

/-- A store at I that fits puts the bytes at I, I+1, ..., goes to the next instruction and changes nothing else (R190). -/
theorem storeAtI_stores (hw : Memory.wf s.mem = true) (h : effAddr s bs.length ≤ 4096) :
    ∃ t, storeAtI s bs = .next t ∧ (∀ k, k < bs.length → t.mem.read (effAddr s k) = bs.getD k 0) ∧
      (∀ a, a < effAddr s 0 ∨ effAddr s bs.length ≤ a → t.mem.read a = s.mem.read a) ∧
      t.pc = s.pc + 2 ∧ KeepsAllBut [.memory] s t := by
  obtain ⟨m, hm, -, hout, hin⟩ := storeAtI_of_le h
  exact ⟨_, hm, hin hw, hout, rfl, (KeepsAllBut.refl s).advance.setMem m⟩

/-- A store at I that leaves Memory faults with the first address outside it (R190). -/
theorem storeAtI_faults (hbs : bs ≠ []) (h : 4096 < effAddr s bs.length) :
    storeAtI s bs = .next (faultedFrom s .addressOutOfBounds (max (effAddr s 0) 4096)) := by
  rw [storeAtI_of_gt hbs h, raise_eq_faultedFrom]
  rfl

/-- Each decimal digit fits in a byte (R194). -/
theorem toNat_getD_bcdDigits (b : Byte) :
    ((bcdDigits b).getD 0 0).toNat = b.toNat / 100 ∧ ((bcdDigits b).getD 1 0).toNat = b.toNat / 10 % 10 ∧
      ((bcdDigits b).getD 2 0).toNat = b.toNat % 10 := by
  have hb := b.isLt
  refine ⟨Nat.mod_eq_of_lt ?_, Nat.mod_eq_of_lt ?_, Nat.mod_eq_of_lt ?_⟩ <;> omega

/-- Settles O38: LD B is a store at I of three bytes. -/
theorem decimalStore : Obligations.DecimalStore := by
  unfold Obligations.DecimalStore
  refine ⟨decodesAs_row (.ldBcd 0), fun x s hw h => ?_, fun x s h => storeAtI_faults (List.cons_ne_nil _ _) h⟩
  obtain ⟨t, ht, hin, hout, hpc, hkeep⟩ := storeAtI_stores (bs := bcdDigits (s.getV x)) hw h
  obtain ⟨hhundreds, htens, hones⟩ := toNat_getD_bcdDigits (s.getV x)
  rw [← hin 0 (by simp)] at hhundreds
  rw [← hin 1 (by simp)] at htens
  rw [← hin 2 (by simp)] at hones
  exact ⟨t, ht, hhundreds, htens, hones, hout, hpc, hkeep⟩

/-- Settles O39: LD [I] is a store at I of V0..Vx. -/
theorem registerBlockStore : Obligations.RegisterBlockStore := by
  unfold Obligations.RegisterBlockStore
  refine ⟨decodesAs_row (.storeRegs 0), fun x s hw h => ?_, fun x s h => ?_⟩ <;> rw [← length_regsUpTo s x] at h
  · obtain ⟨t, ht, hin, hout, hpc, hkeep⟩ := storeAtI_stores hw h
    rw [length_regsUpTo] at hin hout
    exact ⟨t, ht, fun r hr => (hin r.val (Nat.lt_succ_of_le hr)).trans (getD_regsUpTo s hr), hout, hpc, hkeep⟩
  · exact storeAtI_faults (regsUpTo_ne_nil s x) h

/-! ### The block load (R196) -/

theorem Memory.getD_slice (m : Memory) (a n k : Nat) (b : Byte) :
    (m.slice a n).getD k b = if k < n then m.read (a + k) else b := by
  by_cases h : k < n <;> simp [Memory.slice, List.getD, h]

/-- A block load that fits. -/
theorem exec_loadRegs_of_le (h : effAddr s (x.val + 1) ≤ 4096) :
    exec (.loadRegs x) s = .next (s.advance.setVBlock (s.mem.slice (effAddr s 0) (x.val + 1))) := by
  obtain ⟨hgt, -⟩ | ⟨-, ht⟩ := exec_loadRegs_cases s x
  · exact absurd h (Nat.not_le.mpr hgt)
  · exact ht

/-- A block load that leaves Memory faults with the first address outside it. -/
theorem exec_loadRegs_of_gt (h : 4096 < effAddr s (x.val + 1)) :
    exec (.loadRegs x) s = .next (faultedFrom s .addressOutOfBounds (max (effAddr s 0) 4096)) := by
  obtain ⟨-, ht⟩ | ⟨hle, -⟩ := exec_loadRegs_cases s x
  · rw [ht, raise_eq_faultedFrom]
    rfl
  · exact absurd h (Nat.not_lt.mpr hle)

/-- Settles O40: the registers up to x are read from the slice at I, the others from the state. -/
theorem registerBlockLoad : Obligations.RegisterBlockLoad := by
  unfold Obligations.RegisterBlockLoad
  refine ⟨decodesAs_row (.loadRegs 0), fun x s h => ⟨_, exec_loadRegs_of_le h, fun r => ?_, rfl, ?_⟩,
    fun x s h => exec_loadRegs_of_gt h⟩
  · rw [State.getV_setVBlock, Memory.getD_slice]
    exact if_congr Nat.lt_succ_iff rfl rfl
  · exact (KeepsAllBut.refl s).advance.setVBlock _

end Sys2Proof.Machine

/-! PROOFS. Display (44_display.md): CLS and DRW as one rule each, what the framebuffer influences, and that the core makes no cell
other than 0x00 or 0x01. -/
namespace Sys2Proof.Machine

variable {s t : State} {x y : Reg} {n : Nibble} {x0 y0 idx : Nat} {sprite : List Byte}

/-! ### Clearing (R222, R226) -/

/-- Settles O41: both put the cleared framebuffer, CLS after the advance. -/
theorem clearScreen : Obligations.ClearScreen := by
  unfold Obligations.ClearScreen
  exact ⟨decodesAs_row .cls,
    fun s => ⟨_, exec_cls s, Framebuffer.read_cleared, rfl, (KeepsAllBut.refl s).advance.setFb _⟩,
    fun s => ⟨_, rfl, Framebuffer.read_cleared, rfl, (KeepsAllBut.refl s).setFb _⟩⟩

/-! ### The picture of a sprite (R220, R223) -/

/-- The cell `idx` lies in column `c` and row `r` of the window at (x0, y0) exactly when those are its distances from the window's
corner, wrapped. -/
theorem eq_cellIndex_add_iff {c r : Nat} (hidx : idx < 2048) (hc : c < 64) (hr : r < 32) :
    idx = cellIndex (x0 + c) (y0 + r) ↔ (idx % 64 + 64 - x0 % 64) % 64 = c ∧ (idx / 64 + 32 - y0 % 32) % 32 = r := by
  simp only [cellIndex, Config.screenW, Config.screenH]
  omega

/-- A sprite has a 1 bit only in its own rows. -/
theorem lt_length_of_getLsbD_getD {r k : Nat} (h : (sprite.getD r 0).getLsbD k = true) : r < sprite.length := by
  by_contra hr
  simp [not_lt.mp hr] at h

/-- The cells that the blit touches are those of the picture. -/
theorem mem_spriteCells_iff_spriteCovers (hidx : idx < 2048) (hlen : sprite.length ≤ 32) :
    idx ∈ spriteCells x0 y0 sprite ↔ spriteCovers x0 y0 sprite idx = true := by
  simp only [mem_spriteCells, spriteCovers, Bool.and_eq_true, decide_eq_true_eq]
  constructor
  · rintro ⟨r, c, hr, hc, hbit, heq⟩
    obtain ⟨rfl, rfl⟩ := (eq_cellIndex_add_iff hidx (by omega) (by omega)).mp heq
    exact ⟨hc, hbit⟩
  · rintro ⟨hc, hbit⟩
    exact ⟨_, _, lt_length_of_getLsbD_getD hbit, hc, hbit,
      (eq_cellIndex_add_iff hidx (by omega) (by omega)).mpr ⟨rfl, rfl⟩⟩

/-- A cell with the property `p` is among those the blit touches exactly when one is in the picture. -/
theorem exists_mem_spriteCells_iff {p : Nat → Prop} (hlen : sprite.length ≤ 32) :
    (∃ idx ∈ spriteCells x0 y0 sprite, p idx) ↔
      ∃ idx, idx < 2048 ∧ p idx ∧ spriteCovers x0 y0 sprite idx = true := by
  constructor
  · rintro ⟨idx, hmem, hp⟩
    have hidx := spriteCells_lt idx hmem
    exact ⟨idx, hidx, hp, (mem_spriteCells_iff_spriteCovers hidx hlen).mp hmem⟩
  · rintro ⟨idx, hidx, hp, hcov⟩
    exact ⟨idx, (mem_spriteCells_iff_spriteCovers hidx hlen).mpr hcov, hp⟩

/-! ### DRW (R227) -/

theorem flagByte_eq_one_iff (c : Bool) : flagByte c = 0x01 ↔ c = true := by
  cases c <;> decide

theorem flagByte_eq_one_or_zero (c : Bool) : flagByte c = 0x01 ∨ flagByte c = 0x00 := by
  cases c <;> decide

theorem length_bytesAt_le (s : State) (a : Nat) (n : Nibble) : (bytesAt s a n.toNat).length ≤ 32 := by
  have := n.isLt
  rw [bytesAt, List.length_map, List.length_range]
  omega

/-- A draw whose sprite is in Memory. -/
theorem exec_drw_of_not_raises (h : ¬ Raises (.drw x y n) s) : ∃ b : Blit,
    b = drawSprite s.fb (s.getV x).toNat (s.getV y).toNat (bytesAt s (effAddr s 0) n.toNat) ∧
    exec (.drw x y n) s = .next ((s.advance.setFb b.1).setV regF (flagByte b.2)) := by
  obtain ⟨hraises, -⟩ | ⟨-, hdraw⟩ := exec_drw_cases s x y n
  · exact absurd hraises h
  · exact hdraw

/-- A draw whose sprite leaves Memory faults with the first address outside it. -/
theorem exec_drw_of_raises (h : Raises (.drw x y n) s) :
    exec (.drw x y n) s = .next (faultedFrom s .addressOutOfBounds (max (effAddr s 0) 4096)) := by
  obtain ⟨-, ht⟩ | ⟨hok, -⟩ := exec_drw_cases s x y n
  · rw [ht, raise_eq_faultedFrom]
    rfl
  · exact absurd h hok

/-- Settles O42: the pass over the sprite's cells does what `drawSprite_spec` says, and those cells are the covered ones. -/
theorem drawXorsThePicture : Obligations.DrawXorsThePicture := by
  unfold Obligations.DrawXorsThePicture
  refine ⟨decodesAs_row (.drw 0 0 0), fun x y n s hw h => ?_, fun x y n s h => exec_drw_of_raises h⟩
  obtain ⟨b, rfl, ht⟩ := exec_drw_of_not_raises h
  have hlen := length_bytesAt_le s (effAddr s 0) n
  obtain ⟨-, hread, hcollided⟩ := drawSprite_spec s.fb (s.getV x).toNat (s.getV y).toNat _ hlen hw
  refine ⟨_, ht, fun idx hidx => ?_, ?_, ?_, fun r hr => ?_, rfl, ?_⟩
  · exact (hread idx).trans (if_congr (mem_spriteCells_iff_spriteCovers hidx hlen) rfl rfl)
  · rw [State.getV_setV, if_pos rfl]
    exact flagByte_eq_one_or_zero _
  · rw [State.getV_setV, if_pos rfl, flagByte_eq_one_iff, hcollided]
    exact exists_mem_spriteCells_iff hlen
  · rw [State.getV_setV, if_neg hr]
    rfl
  · exact ((KeepsAllBut.refl s).advance.setFb _).setV _ _

/-! ### Who writes and who reads the framebuffer (R225) -/

theorem eq_cls_or_drw_of_display_mem_partsWritten {i : Instr} (h : .display ∈ partsWritten i) :
    i = .cls ∨ ∃ x y n, i = .drw x y n := by
  cases i with
  | cls => exact .inl rfl
  | drw x y n => exact .inr ⟨x, y, n, rfl⟩
  | _ => simp [partsWritten] at h

/-- The answer `r'` is the answer `r` with the framebuffer `f` in place of its own. -/
def SameButFb (f : Framebuffer) (r r' : Result) : Prop := ∃ t, r = .next t ∧ r' = .next (t.setFb f)

theorem skipWhen_setFb (s : State) (f : Framebuffer) (c : Bool) :
    SameButFb f (skipWhen s c) (skipWhen (s.setFb f) c) := by
  cases c <;> exact ⟨_, rfl, rfl⟩

theorem skipOnKey_setFb (s : State) (f : Framebuffer) (x : Reg) (want : Bool) :
    SameButFb f (skipOnKey s x want) (skipOnKey (s.setFb f) x want) := by
  by_cases h : (s.getV x).toNat < 16
  · rw [skipOnKey_of_eq ⟨_, h⟩ rfl, skipOnKey_of_eq (s := s.setFb f) ⟨_, h⟩ rfl]
    exact skipWhen_setFb s f _
  · have hge := Nat.not_lt.mp h
    exact ⟨_, skipOnKey_of_ge hge, skipOnKey_of_ge (s := s.setFb f) hge⟩

theorem storeAtI_setFb (s : State) (f : Framebuffer) (bs : List Byte) :
    SameButFb f (storeAtI s bs) (storeAtI (s.setFb f) bs) := by
  have hwrite : writeBlock (s.setFb f).mem (effAddr (s.setFb f) 0) bs = writeBlock s.mem (effAddr s 0) bs := rfl
  rw [storeAtI, storeAtI, hwrite]
  cases writeBlock s.mem (effAddr s 0) bs <;> exact ⟨_, rfl, rfl⟩

theorem exec_ldKey_setFb (s : State) (f : Framebuffer) (x : Reg) :
    SameButFb f (exec (.ldKey x) s) (exec (.ldKey x) (s.setFb f)) := by
  have hkey : lowestKey (s.setFb f) = lowestKey s := rfl
  simp only [exec, execLdKey, hkey]
  cases lowestKey s <;> exact ⟨_, rfl, rfl⟩

/-- No instruction but CLS and DRW writes the framebuffer or reads it: what decides between completion and fault is in the other
parts of the state (R225). -/
theorem exec_setFb {i : Instr} (s : State) (f : Framebuffer) (hcls : i ≠ .cls) (hdrw : ∀ x y n, i ≠ .drw x y n) :
    SameButFb f (exec i s) (exec i (s.setFb f)) := by
  cases i with
  | cls => exact absurd rfl hcls
  | drw x y n => exact absurd rfl (hdrw x y n)
  | seByte | sneByte | seReg | sneReg => exact skipWhen_setFb s f _
  | skp | sknp => exact skipOnKey_setFb s f _ _
  | ldBcd | storeRegs => exact storeAtI_setFb s f _
  | ldKey x => exact exec_ldKey_setFb s f x
  | call nnn =>
    obtain ⟨hfull, -⟩ | ⟨hlt, -⟩ := exec_call_cases s nnn
    · exact ⟨_, exec_call_of_full hfull, exec_call_of_full (s := s.setFb f) hfull⟩
    · exact ⟨_, exec_call_of_lt hlt, exec_call_of_lt (s := s.setFb f) hlt⟩
  | ret =>
    obtain ⟨hempty, -⟩ | ⟨j, hj, -⟩ := exec_ret_cases s
    · exact ⟨_, exec_ret_of_empty hempty, exec_ret_of_empty (s := s.setFb f) hempty⟩
    · exact ⟨_, exec_ret_of_succ j hj, exec_ret_of_succ (s := s.setFb f) j hj⟩
  | ldFont x =>
    obtain ⟨hnone, -⟩ | ⟨d, w, hd, hw, -⟩ := exec_ldFont_cases s x
    · have hraises : Raises (.ldFont x) s := glyphOf_eq_none_iff.mp hnone
      exact ⟨_, exec_ldFont_of_raises hraises, exec_ldFont_of_raises (s := s.setFb f) hraises⟩
    · exact ⟨_, exec_ldFont_of_eq d hd hw, exec_ldFont_of_eq (s := s.setFb f) d hd hw⟩
  | loadRegs x =>
    obtain ⟨hgt, -⟩ | ⟨hle, -⟩ := exec_loadRegs_cases s x
    · exact ⟨_, exec_loadRegs_of_gt hgt, exec_loadRegs_of_gt (s := s.setFb f) hgt⟩
    · exact ⟨_, exec_loadRegs_of_le hle, exec_loadRegs_of_le (s := s.setFb f) hle⟩
  | _ => exact ⟨_, rfl, rfl⟩

/-- Settles O53: the writes by the frame of `exec_frame`, the reads by `exec_setFb`. -/
theorem onlyDisplayInstructionsUseTheFramebuffer : Obligations.OnlyDisplayInstructionsUseTheFramebuffer := by
  unfold Obligations.OnlyDisplayInstructionsUseTheFramebuffer
  refine ⟨fun i s t idx h hc => ?_, fun i s t f hdrw h => ?_⟩
  · exact eq_cls_or_drw_of_display_mem_partsWritten (mem_partsWritten_of_changed h (by simp) fun hu => hc (hu idx))
  · by_cases hcls : i = .cls
    · subst hcls
      obtain rfl := eq_of_exec_eq_next (exec_cls s) h
      exact ⟨_, exec_cls _, rfl, .inr ⟨rfl, rfl⟩⟩
    · obtain ⟨t', ht, htf⟩ := exec_setFb s f hcls hdrw
      obtain rfl := eq_of_exec_eq_next ht h
      exact ⟨_, htf, rfl, .inl rfl⟩

/-! ### Pixels stay 0x00 or 0x01 (R221) -/

theorem State.PixelsBinary.of_unchanged (h : s.PixelsBinary) (hu : Unchanged .display s t) : t.PixelsBinary := by
  intro idx
  rw [hu idx]
  exact h idx

theorem State.PixelsBinary.of_fb_eq (h : s.PixelsBinary) (heq : t.fb = s.fb) : t.PixelsBinary :=
  h.of_unchanged fun _ => by rw [heq]

theorem State.PixelsBinary.of_cleared (h : t.fb = Framebuffer.cleared) : t.PixelsBinary := by
  intro idx
  rw [h]
  exact .inl (Framebuffer.read_cleared idx)

/-- XOR with on swaps the two values of a binary pixel (R223). -/
theorem xor_one_binary {b : Byte} (h : b = 0x00 ∨ b = 0x01) : b ^^^ 0x01 = 0x00 ∨ b ^^^ 0x01 = 0x01 := by
  obtain rfl | rfl := h <;> decide

/-- A draw leaves each cell as it was or XORed with on. -/
theorem exec_drw_keeps_pixelsBinary (hw : Framebuffer.wf s.fb = true) (hp : s.PixelsBinary)
    (h : exec (.drw x y n) s = .next t) : t.PixelsBinary := by
  by_cases hr : Raises (.drw x y n) s
  · obtain rfl := eq_of_exec_eq_next (exec_drw_of_raises hr) h
    exact hp
  · obtain ⟨b, rfl, ht⟩ := exec_drw_of_not_raises hr
    obtain rfl := eq_of_exec_eq_next ht h
    obtain ⟨-, hread, -⟩ := drawSprite_spec s.fb (s.getV x).toNat (s.getV y).toNat _ (length_bytesAt_le s (effAddr s 0) n) hw
    intro idx
    rw [State.setV_fb, State.setFb_fb, hread idx]
    split
    · exact xor_one_binary (hp idx)
    · exact hp idx

theorem exec_keeps_pixelsBinary {i : Instr} (hw : Framebuffer.wf s.fb = true) (hp : s.PixelsBinary)
    (h : exec i s = .next t) : t.PixelsBinary := by
  by_cases hmem : .display ∈ partsWritten i
  · obtain rfl | ⟨x, y, n, rfl⟩ := eq_cls_or_drw_of_display_mem_partsWritten hmem
    · obtain rfl := eq_of_exec_eq_next (exec_cls s) h
      exact .of_cleared rfl
    · exact exec_drw_keeps_pixelsBinary hw hp h
  · exact hp.of_unchanged (exec_keeps h (by simp) hmem)

/-- A step leaves the framebuffer alone or is an instruction's meaning (R93). -/
theorem stepState_keeps_pixelsBinary (hw : Framebuffer.wf s.fb = true) (hp : s.PixelsBinary) :
    (stepState s).PixelsBinary := by
  obtain ⟨-, ht⟩ | ⟨-, -, ht⟩ | ⟨op, -, -, -, -, ht⟩ | ⟨op, i, -, -, -, -, ht⟩ := step_cases s
  · rwa [stepState_of_next ht]
  · rw [stepState_of_next ht]
    exact hp
  · rw [stepState_of_next ht]
    exact hp
  · obtain ⟨t, hexec, -⟩ := exec_frame i s
    rw [stepState_of_next (ht.trans hexec)]
    exact exec_keeps_pixelsBinary hw hp hexec

/-- What every step keeps, `RunCycles` keeps (R330). -/
theorem runCycles_keeps {P : State → Prop} (hstep : ∀ s, P s → P (stepState s)) (k : Nat) (h : P s) :
    P (runCycles k s).2 := by
  induction k generalizing s with
  | zero => exact h
  | succ k ih =>
    rw [runCycles]
    split
    · exact hstep s h
    · exact hstep s h
    · exact ih (hstep s h)
    · exact ih (hstep s h)

theorem runCycles_keeps_pixelsBinary (k : Nat) (hinv : s.Inv) (hp : s.PixelsBinary) : (runCycles k s).2.PixelsBinary :=
  (runCycles_keeps (P := fun s => s.Inv ∧ s.PixelsBinary)
    (fun _ ⟨hinv, hp⟩ => ⟨stepState_keeps_inv hinv, stepState_keeps_pixelsBinary hinv.fb_wf hp⟩) k ⟨hinv, hp⟩).2

theorem hostWrite_fb (s : State) (r : Except Nat Memory) : (hostWrite s r).2.fb = s.fb := by
  cases r <;> rfl

theorem loadRom_fb (s : State) (bytes : List Byte) : (loadRom s bytes).2.fb = s.fb := by
  rw [loadRom]
  split
  · exact hostWrite_fb ..
  · rfl

theorem loadFont_fb (s : State) : (loadFont s).fb = s.fb := by
  obtain ⟨m, hm, -, -⟩ := loadFont_spec s
  rw [hm, State.setMem_fb]

/-- No transaction but SetPixel makes a pixel other than 0x00 or 0x01. -/
theorem perform_keeps_pixelsBinary (hinv : s.Inv) (hp : s.PixelsBinary) {a : Transaction}
    (ha : ∀ x y b, .setPixel x y b ≠ a) : (perform s a).2.PixelsBinary := by
  cases a with
  | setPixel x y b => exact absurd rfl (ha x y b)
  | step => exact stepState_keeps_pixelsBinary hinv.fb_wf hp
  | runCycles k => exact runCycles_keeps_pixelsBinary k hinv hp
  | runFor ms k => exact runCycles_keeps_pixelsBinary k hinv hp
  | monitorReset => exact .of_cleared rfl
  | loadFont => exact hp.of_fb_eq (loadFont_fb s)
  | loadRom bytes => exact hp.of_fb_eq (loadRom_fb s bytes)
  | storeOpcode | writeByte => exact hp.of_fb_eq (hostWrite_fb s _)
  | _ => exact hp

/-- Settles O18, by induction on the schedule: each transaction keeps the invariant and, unless it is SetPixel, the pixels binary. -/
theorem pixelsStayBinary : Obligations.PixelsStayBinary := by
  unfold Obligations.PixelsStayBinary
  intro ts
  induction ts with
  | nil => exact fun s _ hp _ => hp
  | cons a ts ih =>
    intro s hinv hp hts
    refine ih _ (perform_keeps_inv hinv a) (perform_keeps_pixelsBinary hinv hp fun x y b => ?_) fun x y b => ?_
    · exact List.ne_of_not_mem_cons (hts x y b)
    · exact List.not_mem_of_not_mem_cons (hts x y b)

end Sys2Proof.Machine

/-! PROOFS. Timers and keys (45_timers_keys.md): the skips on a key, the timer transfers, and the end of a wait for a key. -/
namespace Sys2Proof.Machine

variable {s : State} {x : Reg}

/-! ### Skips on a key (R251, R252) -/

/-- SKP's skip is taken when the key is pressed. -/
theorem onlyMovesPc_skip_of_pressed (s : State) (pressed : Bool) :
    OnlyMovesPc (if pressed = true then s.pc + 4 else s.pc + 2) s (s.advance.skipIf (pressed == true)) := by
  simpa using onlyMovesPc_advance_skipIf s pressed

/-- SKNP's skip is taken when the key is released. -/
theorem onlyMovesPc_skip_of_released (s : State) (pressed : Bool) :
    OnlyMovesPc (if pressed = true then s.pc + 2 else s.pc + 4) s (s.advance.skipIf (pressed == false)) := by
  cases pressed with
  | false => exact onlyMovesPc_advance_skipIf s true
  | true => exact onlyMovesPc_advance_skipIf s false

/-- A key skip on a number that is no key faults with that number (R285). -/
theorem skipOnKey_faults (want : Bool) (h : 0xF < (s.getV x).toNat) :
    skipOnKey s x want = .next (faultedFrom s .indexOutOfBounds (s.getV x).toNat) := by
  rw [skipOnKey_of_ge h, raise_eq_faultedFrom]

/-- Settles O43: both instructions are `skipOnKey`, which has one rule for a key and one for no key. -/
theorem skipsOnKey : Obligations.SkipsOnKey := by
  unfold Obligations.SkipsOnKey
  exact ⟨decodesAs_row (.skp 0), decodesAs_row (.sknp 0),
    fun x s k hk => ⟨⟨_, skipOnKey_of_eq k hk, onlyMovesPc_skip_of_pressed s _⟩,
      ⟨_, skipOnKey_of_eq k hk, onlyMovesPc_skip_of_released s _⟩⟩,
    fun x s h => ⟨skipOnKey_faults true h, skipOnKey_faults false h⟩⟩

/-! ### Timers (R253, R255, R256) -/

/-- Settles O44: each instruction is one write after the advance. -/
theorem timerAccess : Obligations.TimerAccess := by
  unfold Obligations.TimerAccess
  exact ⟨decodesAs_row (.ldFromDt 0), decodesAs_row (.ldDt 0), decodesAs_row (.ldSt 0),
    fun x s => ⟨_, exec_ldFromDt s x, writesReg_advance_setV s x s.dt⟩,
    fun x s => ⟨_, exec_ldDt s x, rfl, rfl, (KeepsAllBut.refl s).advance.setDT _⟩,
    fun x s => ⟨_, exec_ldSt s x, rfl, rfl, (KeepsAllBut.refl s).advance.setST _⟩⟩

/-! ### The wait for a key (R254) -/

/-- With a key pressed the wait ends, and Vx takes the lowest-numbered pressed key. -/
theorem exec_ldKey_of_lowestKey {k : Reg} (h : lowestKey s = some k) :
    exec (.ldKey x) s = .next (s.advance.setV x (keyByte k)) := by
  obtain ⟨hnone, -⟩ | ⟨k', hk', ht⟩ := exec_ldKey_cases s x
  · rw [lowestKey_eq_none_iff.mpr hnone] at h
    contradiction
  · obtain rfl : k' = k := Option.some.inj (hk'.symm.trans h)
    exact ht

/-- Settles O45: a pressed key with no lower one pressed is the key that `lowestKey` finds. -/
theorem keyWaitEnds : Obligations.KeyWaitEnds := by
  unfold Obligations.KeyWaitEnds
  exact ⟨decodesAs_row (.ldKey 0), fun x s k hk hlower =>
    ⟨_, exec_ldKey_of_lowestKey (lowestKey_eq_some_iff.mpr ⟨hk, hlower⟩), writesReg_advance_setV s x _⟩⟩

end Sys2Proof.Machine

/-! PROOFS. Faults (60_exceptions.md): an instruction and a step fault exactly for their causes, and a fault is the fault entry alone;
the wait for a key is no fault; and the timers count down. -/
namespace Sys2Proof.Machine

variable {s t : State} {cause : Prop} {r : Result}

/-! ### Every answer is a next state (R93, R285) -/

/-- Settles O11: `exec_frame` names a next state of every instruction, and `step_cases` leaves nothing else but fault entries. -/
theorem everyStepHasNextState : Obligations.EveryStepHasNextState := by
  unfold Obligations.EveryStepHasNextState
  have hexec (i : Instr) (s : State) : ∃ t, exec i s = .next t := (exec_frame i s).imp fun _ h => h.1
  refine ⟨fun s => ?_, hexec⟩
  obtain ⟨-, ht⟩ | ⟨-, -, ht⟩ | ⟨op, -, -, -, -, ht⟩ | ⟨op, i, -, -, -, -, ht⟩ := step_cases s
  · exact ⟨_, ht⟩
  · exact ⟨_, ht⟩
  · exact ⟨_, ht⟩
  · exact ht ▸ hexec i s

/-! ### Causes of a fault (R281, R286) -/

/-- `r` is a fault entry from `s`, of a kind `Step` raises, when the cause holds, and a completion when it does not: a completion
leaves the status as it was or Exited. -/
def FaultsExactlyIf (cause : Prop) (s : State) (r : Result) : Prop :=
  (cause ∧ ∃ kind info, kind ≠ .romLoadError ∧ r = .next (s.raise kind info)) ∨
  (¬ cause ∧ ∃ t, r = .next t ∧ (t.status = s.status ∨ t.status = .exited))

theorem FaultsExactlyIf.raises {kind : FaultKind} {info : Nat} (hc : cause) (hk : kind ≠ .romLoadError)
    (h : r = .next (s.raise kind info)) : FaultsExactlyIf cause s r :=
  .inl ⟨hc, kind, info, hk, h⟩

theorem FaultsExactlyIf.completes (hc : ¬ cause) (h : r = .next t) (ht : t.status = s.status ∨ t.status = .exited) :
    FaultsExactlyIf cause s r :=
  .inr ⟨hc, t, h, ht⟩

/-- A store of n bytes at I faults exactly when it reaches address 4096 (R190). -/
theorem storeAtI_faultsExactlyIf {bs : List Byte} {n : Nat} (s : State) (hbs : bs ≠ []) (hlen : bs.length = n) :
    FaultsExactlyIf (4096 < effAddr s n) s (storeAtI s bs) := by
  subst hlen
  by_cases h : 4096 < effAddr s bs.length
  · exact .raises h (by decide) (storeAtI_of_gt hbs h)
  · obtain ⟨m, hm, -, -, -⟩ := storeAtI_of_le (Nat.not_lt.mp h)
    exact .completes h hm (by simp)

/-- A key skip faults exactly when Vx is no key's number (R251, R252). -/
theorem skipOnKey_faultsExactlyIf (s : State) (x : Reg) (want : Bool) :
    FaultsExactlyIf (0xF < (s.getV x).toNat) s (skipOnKey s x want) := by
  by_cases h : 0xF < (s.getV x).toNat
  · exact .raises h (by decide) (skipOnKey_of_ge h)
  · exact .completes h (skipOnKey_of_eq ⟨_, Nat.not_le.mp h⟩ rfl) (by simp)

/-- An instruction faults exactly for its cause in R281; the ones of the last arm have none, and always complete. -/
theorem exec_faultsExactlyIf (i : Instr) (s : State) : FaultsExactlyIf (Raises i s) s (exec i s) := by
  cases i with
  | ret =>
    obtain ⟨h, ht⟩ | ⟨j, hj, ht⟩ := exec_ret_cases s
    · exact .raises h (by decide) ht
    · exact .completes (fun h : s.sp.val = 0 => by omega) ht (by simp)
  | call nnn =>
    obtain ⟨h, ht⟩ | ⟨hlt, ht⟩ := exec_call_cases s nnn
    · exact .raises h (by decide) ht
    · exact .completes hlt.ne ht (by simp)
  | skp x => exact skipOnKey_faultsExactlyIf s x true
  | sknp x => exact skipOnKey_faultsExactlyIf s x false
  | ldFont x =>
    obtain ⟨h, ht⟩ | ⟨d, w, hd, hw, ht⟩ := exec_ldFont_cases s x
    · exact .raises (glyphOf_eq_none_iff.mp h) (by decide) ht
    · exact .completes (fun h => by simp [h d hd.symm] at hw) ht (by simp)
  | drw x y n =>
    obtain ⟨h, ht⟩ | ⟨h, b, -, ht⟩ := exec_drw_cases s x y n
    · exact .raises h (by decide) ht
    · exact .completes h ht (by simp)
  | ldBcd x => exact storeAtI_faultsExactlyIf s (List.cons_ne_nil _ _) (length_bcdDigits (s.getV x))
  | storeRegs x => exact storeAtI_faultsExactlyIf s (regsUpTo_ne_nil s x) (length_regsUpTo s x)
  | loadRegs x =>
    obtain ⟨h, ht⟩ | ⟨h, ht⟩ := exec_loadRegs_cases s x
    · exact .raises h (by decide) ht
    · exact .completes (Nat.not_lt.mpr h) ht (by simp)
  | ldKey x =>
    obtain ⟨-, ht⟩ | ⟨k, -, ht⟩ := exec_ldKey_cases s x
    · exact .completes id ht (by simp)
    · exact .completes id ht (by simp)
  | _ => exact .completes id rfl (by simp)

/-- The causes of a fault of a running machine's step (R281): the fetch, the decode, or the instruction's own. -/
def StepRaises (s : State) : Prop :=
  match opcodeAtPc s with
  | none => True
  | some op =>
    match decodeWord op with
    | none   => True
    | some i => Raises i s

theorem stepRaises_of_no_opcode (h : opcodeAtPc s = none) : StepRaises s := by
  simp [StepRaises, h]

theorem stepRaises_of_unmapped {op : Word} (h : opcodeAtPc s = some op) (hd : decodeWord op = none) : StepRaises s := by
  simp [StepRaises, h, hd]

theorem stepRaises_iff_of_decoded {op : Word} {i : Instr} (h : opcodeAtPc s = some op) (hd : decodeWord op = some i) :
    StepRaises s ↔ Raises i s := by
  simp [StepRaises, h, hd]

/-- A running machine's step faults exactly for its causes (R281, R286). -/
theorem step_faultsExactlyIf (hr : s.status = .running) : FaultsExactlyIf (StepRaises s) s (step s) := by
  have hcases := step_cases s
  simp only [fetchedOpcode_eq_opcodeAtPc] at hcases
  obtain ⟨hne, -⟩ | ⟨-, hp, ht⟩ | ⟨op, -, -, hop, hd, ht⟩ | ⟨op, i, -, -, hop, hd, ht⟩ := hcases
  · exact absurd hr hne
  · have hnone : opcodeAtPc s = none := fetchedOpcode_eq_opcodeAtPc s ▸ State.fetchedOpcode_eq_none_iff.mpr hp
    exact .raises (stepRaises_of_no_opcode hnone) (by decide) ht
  · exact .raises (stepRaises_of_unmapped hop hd) (by decide) ht
  · rw [ht, stepRaises_iff_of_decoded hop hd]
    exact exec_faultsExactlyIf i s

/-- A step of a running machine ends Faulted by the fault entry for a cause, and never without one. -/
theorem step_running_cases (hr : s.status = .running) (h : step s = .next t) :
    (StepRaises s ∧ ∃ kind info, kind ≠ .romLoadError ∧ t = s.raise kind info) ∨
    (¬ StepRaises s ∧ t.status ≠ .faulted) := by
  obtain ⟨hc, kind, info, hk, ht⟩ | ⟨hc, t', ht, hstatus⟩ := step_faultsExactlyIf hr
  · exact .inl ⟨hc, kind, info, hk, Host.Outcome.next.inj (h.symm.trans ht)⟩
  · obtain rfl := Host.Outcome.next.inj (ht.symm.trans h)
    refine .inr ⟨hc, ?_⟩
    obtain heq | heq := hstatus <;> simp [heq, hr]

/-- Settles O12: a step that ends Faulted is a fault entry, and `Step` returns the record it wrote. -/
theorem faultsArePrecise : Obligations.FaultsArePrecise := by
  unfold Obligations.FaultsArePrecise
  intro s t hr h hf
  obtain ⟨-, kind, info, hk, rfl⟩ | ⟨-, hnf⟩ := step_running_cases hr h
  · rw [raise_eq_faultedFrom] at h ⊢
    exact ⟨kind, info, rfl, hk, (stepResult_of_running hr h).2 _ rfl rfl⟩
  · exact absurd hf hnf

/-- Settles O13: the causes of `StepRaises` are the ones listed. -/
theorem faultCausesAreTheListed : Obligations.FaultCausesAreTheListed := by
  unfold Obligations.FaultCausesAreTheListed
  intro s t hr h
  change t.status = .faulted ↔ StepRaises s
  obtain ⟨hc, kind, info, -, rfl⟩ | ⟨hc, hnf⟩ := step_running_cases hr h
  · exact iff_of_true rfl hc
  · exact iff_of_false hnf hc

/-! ### The wait for a key is no fault (R254, R283) -/

theorem exec_ldKey_of_none_pressed {x : Reg} (h : ∀ j : Fin 16, s.keys[j.val] = false) : exec (.ldKey x) s = .next s := by
  obtain ⟨-, ht⟩ | ⟨k, hk, -⟩ := exec_ldKey_cases s x
  · exact ht
  · simp [lowestKey_eq_none_iff.mpr h] at hk

/-- Settles O46: the step is the instruction's, and it leaves the machine Running. -/
theorem keyWaitRetries : Obligations.KeyWaitRetries := by
  unfold Obligations.KeyWaitRetries
  refine ⟨fun x s h => exec_ldKey_of_none_pressed h, fun x s op hr hop hd h => ?_⟩
  rw [← fetchedOpcode_eq_opcodeAtPc] at hop
  have hstep : step s = .next s := (step_of_decoded hr hop hd).trans (exec_ldKey_of_none_pressed h)
  exact ⟨hstep, (stepResult_of_running hr hstep).1 (by simp [hr])⟩

/-! ### The timers (R291) -/

/-- A timer counts down to 0 and stays there. -/
theorem toNat_countDown (b : Byte) : (countDown b).toNat = if b.toNat > 0 then b.toNat - 1 else 0 := by
  have := b.isLt
  rw [countDown]
  split
  · have hone : (1 : Byte).toNat = 1 := rfl
    rw [toNat_byte_sub, hone]
    omega
  · omega

/-- Settles O54: `UpdateTimers` writes the two timers and nothing else, in every status. -/
theorem updateTimersCountsDown : Obligations.UpdateTimersCountsDown := by
  unfold Obligations.UpdateTimersCountsDown
  exact fun s => ⟨_, rfl, toNat_countDown s.dt, toNat_countDown s.st, rfl, ((KeepsAllBut.refl s).setST _).setDT _⟩

end Sys2Proof.Machine

/-! PROOFS. Reset and runs (70_reset_and_hazards.md): the power-on state is a good state, CpuReset restarts the CPU, and RunCycles is
its steps, said once by the status after the first of them. -/
namespace Sys2Proof.Machine

variable {s : State} {n : Nat}

/-! ### RunCycles (R330, R333) -/

theorem step_eq_next_stepState (s : State) : step s = .next (stepState s) := by
  obtain ⟨t, ht⟩ := everyStepHasNextState.1 s
  rw [stepState_of_next ht, ht]

theorem stepState_of_not_running (h : s.status ≠ .running) : stepState s = s :=
  stepState_of_next (step_of_not_running h)

/-- A running machine's step that ends Faulted is a fault entry, so there is a record for `Step` to return (R285). -/
theorem exists_stepResult_eq_fault (hr : s.status = .running) (hf : (stepState s).status = .faulted) :
    ∃ r, stepResult s = .fault r ∧ (stepState s).fault = some r := by
  have hnext := step_eq_next_stepState s
  obtain ⟨-, kind, info, -, ht⟩ | ⟨-, hnf⟩ := step_running_cases hr hnext
  · have hrec := (congrArg State.fault ht).trans (State.raise_fault s kind info)
    exact ⟨_, (stepResult_of_running hr hnext).2 _ hf hrec, hrec⟩
  · exact absurd hf hnf

/-- A run stops at a step that leaves the machine Faulted, which it does also when the machine was Faulted before. -/
theorem runCycles_succ_of_faulted (hf : (stepState s).status = .faulted) :
    runCycles (n + 1) s = ((stepState s).fault, stepState s) := by
  rw [runCycles]
  cases hs : s.status with
  | running =>
    obtain ⟨r, hres, hrec⟩ := exists_stepResult_eq_fault hs hf
    rw [hres, hrec]
  | exited => simp [stepState_of_not_running, hs] at hf
  | faulted =>
    obtain ⟨-, hres⟩ := (haltedMachineStaysPut s).2 hs
    rw [hres, stepState_of_not_running (by simp [hs])]

/-- A run goes on after any other step. -/
theorem runCycles_succ_of_not_faulted (hf : (stepState s).status ≠ .faulted) :
    runCycles (n + 1) s = runCycles n (stepState s) := by
  rw [runCycles]
  cases hs : s.status with
  | running => rw [(stepResult_of_running hs (step_eq_next_stepState s)).1 hf]
  | exited =>
    obtain ⟨-, hres⟩ := (haltedMachineStaysPut s).1 hs
    rw [hres]
  | faulted => exact absurd (by rw [stepState_of_not_running (by simp [hs]), hs]) hf

/-- The steps left over after a fault change nothing, so stopping there loses none. -/
theorem runCycles_snd_eq_iterate (n : Nat) (s : State) : (runCycles n s).2 = stepState^[n] s := by
  induction n generalizing s with
  | zero => rfl
  | succ n ih =>
    rw [Function.iterate_succ_apply]
    by_cases hf : (stepState s).status = .faulted
    · have hfixed : stepState (stepState s) = stepState s := stepState_of_not_running (by simp [hf])
      rw [runCycles_succ_of_faulted hf, Function.iterate_fixed hfixed]
    · rw [runCycles_succ_of_not_faulted hf, ih]

theorem SafeRun.status_ne_faulted (h : SafeRun n s) : s.status ≠ .faulted := by
  cases n with
  | zero => exact h
  | succ n => exact h.1

/-- The invariant gives a machine that became Faulted a record to return (R34). -/
theorem runCycles_fst_eq_none_iff (n : Nat) (hinv : s.Inv) (hs : s.status ≠ .faulted) :
    (runCycles n s).1 = none ↔ SafeRun n s := by
  induction n generalizing s with
  | zero => exact iff_of_true rfl hs
  | succ n ih =>
    have hinv' := stepState_keeps_inv hinv
    by_cases hf : (stepState s).status = .faulted
    · have hsome := hinv'.fault_iff.mpr hf
      rw [runCycles_succ_of_faulted hf]
      exact iff_of_false (Option.isSome_iff_ne_none.mp hsome) fun h => h.2.status_ne_faulted hf
    · rw [runCycles_succ_of_not_faulted hf, ih hinv' hf]
      exact (and_iff_right hs).symm

theorem faulted_of_runCycles_fst_eq_some {r : FaultRecord} (h : (runCycles n s).1 = some r) :
    (runCycles n s).2.status = .faulted ∧ (runCycles n s).2.fault = some r := by
  induction n generalizing s with
  | zero => cases h
  | succ n ih =>
    by_cases hf : (stepState s).status = .faulted
    · rw [runCycles_succ_of_faulted hf] at h ⊢
      exact ⟨hf, h⟩
    · rw [runCycles_succ_of_not_faulted hf] at h ⊢
      exact ih h

theorem runCycles_succ_of_already_faulted (n : Nat) (h : s.status = .faulted) : runCycles (n + 1) s = (s.fault, s) := by
  have hstay : stepState s = s := stepState_of_not_running (by simp [h])
  rw [runCycles_succ_of_faulted (by rwa [hstay]), hstay]

/-- Settles O59: each clause follows from the two equations of a run by the status after its first step. -/
theorem runCyclesIsIteratedStep : Obligations.RunCyclesIsIteratedStep := by
  unfold Obligations.RunCyclesIsIteratedStep
  exact ⟨runCycles_snd_eq_iterate, fun n _ => runCycles_fst_eq_none_iff n, fun _ _ _ => faulted_of_runCycles_fst_eq_some,
    fun n _ => runCycles_succ_of_already_faulted n, fun _ _ _ => ⟨rfl, rfl⟩⟩

/-! ### Power-on (R36, R322) -/

theorem reset_inv : State.reset.Inv where
  mem_wf      := rfl
  fb_wf       := rfl
  pc_le       := by decide
  stack_le    := by simp [State.reset]
  font_loc    := fun d => .inr (getElem_standardFontLoc d)
  fault_iff   := by decide
  fault_shape := by simp [State.reset]

/-- Settles O15: the empty framebuffer is the cleared one. -/
theorem resetMeetsInvariant : Obligations.ResetMeetsInvariant := ⟨reset_inv, .of_cleared rfl⟩

/-! ### CpuReset (R320, R321) -/

theorem KeepsAllBut.cpuReset (s : State) :
    KeepsAllBut [.regs, .index, .sp, .stack, .delay, .sound, .status, .faultRecord] s s.cpuReset := by
  intro p hp
  cases p <;> simp [Unchanged] at hp ⊢

@[simp] theorem State.getV_cpuReset (s : State) (r : Reg) : s.cpuReset.getV r = 0x00 := by
  simp [State.getV]

/-- Settles O55: the CPU's parts are the values `cpuReset` writes, and its frame keeps the others. -/
theorem cpuResetRestartsAndKeepsMemory : Obligations.CpuResetRestartsAndKeepsMemory := by
  unfold Obligations.CpuResetRestartsAndKeepsMemory
  intro s
  have hkeeps := KeepsAllBut.cpuReset s
  exact ⟨s.cpuReset, rfl, s.getV_cpuReset, rfl, rfl, rfl, by simp, rfl, rfl, rfl, rfl, hkeeps _ (by decide),
    hkeeps _ (by decide), hkeeps _ (by decide), hkeeps _ (by decide), hkeeps _ (by decide)⟩

end Sys2Proof.Machine
